-- ==== Sys2Proof/Word.lean ====
section
/-! DEFINITION. The machine's two word types (00_scope.md R9).
Registers and memory cells are 8 bits wide; instructions, the program counter and call-stack entries are 16 bits wide. -/

namespace Sys2Proof

/-- A register's or a memory cell's contents: 8 bits, unsigned (R9, R12, R20, R36). -/
abbrev Byte := BitVec 8

/-- An instruction, a program-counter value or a call-stack entry: 16 bits, unsigned (R9, R12, R60). -/
abbrev Word := BitVec 16

end Sys2Proof
end

