-- ==== Sys2Proof/Config.lean ====
section
/-! DEFINITION. The construction-time parameters of a machine (00_scope.md R6 to R10, 10_state.md R40).
The model takes both sizes as arguments: a configuration is carried by every machine state, so that a
statement about every state is a statement about every configuration. The source calls nothing undefined
(93_implementation_defined.md, section 1), so the model has no free value. -/

namespace Sys2Proof

/-- The two parameters a machine is constructed with. The register count is the constant 16 (R6) and is
therefore no parameter. -/
structure Config where
  /-- MEM_SIZE, the number of memory bytes (R7). -/
  memSize : Nat
  /-- STACK_DEPTH, the number of call-stack entries (R8). -/
  stackDepth : Nat
  deriving DecidableEq, Repr

/-- The configurations the spec admits: 2 ≤ MEM_SIZE ≤ 4096 (R7) and STACK_DEPTH ≥ 1 (R8). -/
abbrev Config.Ok (c : Config) : Prop :=
  2 ≤ c.memSize ∧ c.memSize ≤ 4096 ∧ 1 ≤ c.stackDepth

/-- The reference configuration of R7 and R8: MEM_SIZE = 4096, STACK_DEPTH = 16 (notes/assumptions/1.md). -/
def Config.reference : Config := { memSize := 4096, stackDepth := 16 }

end Sys2Proof
end

