-- ==== Sys2Proof/Syntax.lean ====
section
/-! DEFINITION. The instruction set (30_encoding.md R66 to R69, one constructor per row of
opcode_table.json) and the assembler's lines (R74). -/

namespace Sys2Proof

/-- A register index, 0 to 15; every value names a register (R21, R64). -/
abbrev RegIdx := Fin 16

/-- Register 15, VF, the carry register (R6, R22). -/
abbrev carryReg : RegIdx := 15

/-- The four instructions. -/
inductive Instr where
  /-- HALT, 0x0000: stop the run cleanly (R66, R96). -/
  | halt
  /-- RET, 0x00EE: return from subroutine (R67, R92). -/
  | ret
  /-- CALL nnn, 0x2nnn: call the subroutine at the absolute 12-bit byte address nnn (R63, R68, R90). -/
  | call (addr : BitVec 12)
  /-- ADD Vx, Vy, 0x8xy4: add register y into register x with carry detection (R69, R87). -/
  | add (x y : RegIdx)
  deriving DecidableEq, Repr

/-- One line of assembler source (R74), its operands as written and not yet checked. -/
inductive AsmLine where
  | halt
  | ret
  /-- `CALL nnn`. -/
  | call (nnn : Nat)
  /-- `ADD Vx, Vy`: the numbers after the two V's. -/
  | add (x y : Nat)
  /-- `.word 0xhhhh`: a raw word. -/
  | word (w : Nat)
  deriving DecidableEq, Repr

end Sys2Proof
end

