-- ==== Sys2Proof/WellFormed.lean ====
section
/-! DEFINITION. The well-formedness checks.
A value of `Instr` is well-formed by its types alone: a register field is a `Fin 16` (R64: "Every value is a
valid register") and a CALL target is 12 bits (R63), so no ill-formed instruction can be written. What can be
written wrongly is an assembler line (R74), a configuration (`Config.Ok`, R7 and R8) and a program image
(R41: a byte outside `mem`); each has its check, and Tests/Slice0.lean shows each check refuse. -/

namespace Sys2Proof

/-- The constraints of R74: a CALL operand is at most 0xFFF, a register is V0 to VF, a raw word is four hex
digits. -/
def AsmLine.wellFormed : AsmLine → Bool
  | .halt => true
  | .ret => true
  | .call nnn => nnn ≤ 0xFFF
  | .add x y => x ≤ 15 && y ≤ 15
  | .word w => w ≤ 0xFFFF

/-- Every chunk of a program image, its bytes at rising addresses from its first component on, lies inside
`mem`, addresses 0 to MEM_SIZE-1 (R15, R36, R41). -/
def imageInRange (c : Config) (image : List (Nat × List Byte)) : Bool :=
  image.all (fun chunk => chunk.1 + chunk.2.length ≤ c.memSize)

end Sys2Proof
end

