-- ==== Sys2Proof/Decode.lean ====
section
/-! DEFINITION. Bit fields, the decoder, the encoder, the opcode table and the assembler
(30_encoding.md R60 to R75, 40_cycle.md R80 and R81, 20_memory.md R47 and R48). -/

namespace Sys2Proof

/-! ### Bytes and words -/

/-- The word a big-endian byte pair forms: the byte at the lower address is the high one (R47, R48). -/
def wordOfBytes (hi lo : Byte) : Word := hi ++ lo

/-- `w[15:8]`, the byte that stands at the lower address (R48). -/
def highByte (w : Word) : Byte := w.extractLsb' 8 8

/-- `w[7:0]`, the byte that stands at the higher address (R48). -/
def lowByte (w : Word) : Byte := w.extractLsb' 0 8

/-! ### Fields -/

/-- The five fields extracted from every instruction, whatever its group (R61, R62, R80). -/
structure Fields where
  /-- group, `instr[15:12]` -/
  g : BitVec 4
  /-- `instr[11:8]` -/
  x : BitVec 4
  /-- `instr[7:4]` -/
  y : BitVec 4
  /-- sub-opcode, `instr[3:0]` -/
  d : BitVec 4
  /-- `instr[11:0]`, which overlaps `x`, `y` and `d` -/
  addr : BitVec 12
  deriving DecidableEq, Repr

/-- Field extraction: a function of the 16 bits alone, with no validation (R62, R80). -/
def fieldsOf (instr : Word) : Fields where
  g := instr.extractLsb' 12 4
  x := instr.extractLsb' 8 4
  y := instr.extractLsb' 4 4
  d := instr.extractLsb' 0 4
  addr := instr.extractLsb' 0 12

/-- A register-index field selects its register directly (R64). -/
def regOfField (f : BitVec 4) : RegIdx := f.toFin

/-- The field that selects a register (R64). -/
def fieldOfReg (r : RegIdx) : BitVec 4 := BitVec.ofFin r

/-! ### Decoding -/

/-- Why bytes are no instruction. -/
inductive DecodeError where
  /-- The word matches none of the four patterns (R71); it carries the raw word. -/
  | unimplementedOpcode (raw : Word)
  /-- Fewer than the two bytes every instruction has (R60). -/
  | tooFewBytes
  deriving DecidableEq, Repr

/-- The dispatcher's total match over `(G, X, Y, D)` (R81), in the source's order, with no default arm that
executes anything (R72). -/
def decode (instr : Word) : Except DecodeError Instr :=
  let f := fieldsOf instr
  if f.g = 0x0#4 ∧ f.x = 0x0#4 ∧ f.y = 0x0#4 ∧ f.d = 0x0#4 then .ok .halt
  else if f.g = 0x0#4 ∧ f.x = 0x0#4 ∧ f.y = 0xE#4 ∧ f.d = 0xE#4 then .ok .ret
  else if f.g = 0x2#4 then .ok (.call f.addr)
  else if f.g = 0x8#4 ∧ f.d = 0x4#4 then .ok (.add (regOfField f.x) (regOfField f.y))
  else .error (.unimplementedOpcode instr)

/-- Decoding the front of a byte sequence: always two bytes, big-endian (R60). -/
def decodeBytes : List Byte → Except DecodeError (Instr × List Byte)
  | hi :: lo :: rest => (decode (wordOfBytes hi lo)).map (fun i => (i, rest))
  | _ => .error .tooFewBytes

/-! ### Encoding -/

/-- The word of an instruction, field by field (R66 to R69). -/
def encode : Instr → Word
  | .halt => 0x0000#16
  | .ret => 0x00EE#16
  | .call addr => 0x2#4 ++ addr
  | .add x y => 0x8#4 ++ fieldOfReg x ++ fieldOfReg y ++ 0x4#4

/-- A word's two bytes in the order memory holds them (R48). -/
def bytesOfWord (w : Word) : List Byte := [highByte w, lowByte w]

/-- An instruction's two bytes in memory order (R48, R60). -/
def encodeBytes (i : Instr) : List Byte := bytesOfWord (encode i)

/-! ### The opcode table -/

/-- A row of the opcode map: a word is the row's instruction iff `word &&& mask = bits` (R66 to R69). -/
structure OpcodeRow where
  mnemonic : String
  bits : Word
  mask : Word
  deriving DecidableEq, Repr

/-- HALT's row (R66). -/
def haltRow : OpcodeRow := { mnemonic := "HALT", bits := 0x0000#16, mask := 0xFFFF#16 }
/-- RET's row (R67). -/
def retRow : OpcodeRow := { mnemonic := "RET", bits := 0x00EE#16, mask := 0xFFFF#16 }
/-- CALL's row (R68). -/
def callRow : OpcodeRow := { mnemonic := "CALL", bits := 0x2000#16, mask := 0xF000#16 }
/-- ADD's row (R69). -/
def addRow : OpcodeRow := { mnemonic := "ADD", bits := 0x8004#16, mask := 0xF00F#16 }

/-- opcode_table.json, row by row. -/
def opcodeTable : List OpcodeRow := [haltRow, retRow, callRow, addRow]

/-- Whether a word has a row's pattern. -/
def OpcodeRow.matches (r : OpcodeRow) (w : Word) : Bool := w &&& r.mask == r.bits

/-- An instruction's row. -/
def rowOf : Instr → OpcodeRow
  | .halt => haltRow
  | .ret => retRow
  | .call _ => callRow
  | .add _ _ => addRow

/-! ### The assembler (R74, R75) -/

/-- The word an assembler line stands for; a line that breaks a constraint of R74 is refused. -/
def assemble (l : AsmLine) : Option Word :=
  if l.wellFormed then
    match l with
    | .halt => some (encode .halt)
    | .ret => some (encode .ret)
    | .call nnn => some (encode (.call (BitVec.ofNat 12 nnn)))
    | .add x y => some (encode (.add (Fin.ofNat 16 x) (Fin.ofNat 16 y)))
    | .word w => some (BitVec.ofNat 16 w)
  else none

/-- The line that writes an instruction (R74). -/
def AsmLine.ofInstr : Instr → AsmLine
  | .halt => .halt
  | .ret => .ret
  | .call addr => .call addr.toNat
  | .add x y => .add x.val y.val

/-- The value of a hexadecimal digit, in either case (R74). -/
def hexDigit (ch : Char) : Option (Fin 16) :=
  let c := ch.toNat
  if 48 ≤ c ∧ c ≤ 57 then some (Fin.ofNat 16 (c - 48))
  else if 65 ≤ c ∧ c ≤ 70 then some (Fin.ofNat 16 (c - 55))
  else if 97 ≤ c ∧ c ≤ 102 then some (Fin.ofNat 16 (c - 87))
  else none

/-- The register a name means: V0 to V9 and VA to VF, case-insensitive (R13, R74). -/
def regOfName : List Char → Option RegIdx
  | [v, n] => if v = 'V' ∨ v = 'v' then hexDigit n else none
  | _ => none

/-- The number hexadecimal digits write, after those already read. -/
def hexDigits (value : Nat) : List Char → Option Nat
  | [] => some value
  | ch :: rest =>
    match hexDigit ch with
    | some d => hexDigits (16 * value + d.val) rest
    | none => none

/-- A number with its `0x` prefix and at least one digit (R74). -/
def hexNumber : List Char → Option Nat
  | '0' :: 'x' :: ch :: rest => hexDigits 0 (ch :: rest)
  | _ => none

/-- One line of assembler text, spelled as R74's table spells it (notes/assumptions/9.md). -/
def parseLine : List Char → Option AsmLine
  | ['H', 'A', 'L', 'T'] => some .halt
  | ['R', 'E', 'T'] => some .ret
  | 'C' :: 'A' :: 'L' :: 'L' :: ' ' :: number => (hexNumber number).map .call
  | ['A', 'D', 'D', ' ', v, x, ',', ' ', w, y] =>
    match regOfName [v, x], regOfName [w, y] with
    | some rx, some ry => some (.add rx.val ry.val)
    | _, _ => none
  | '.' :: 'w' :: 'o' :: 'r' :: 'd' :: ' ' :: number => (hexNumber number).map .word
  | _ => none

/-- The word a line of text stands for. -/
def assembleText (line : List Char) : Option Word := (parseLine line).bind assemble

/-- The words of a program text, one line per instruction (R74). -/
def assembleProgram (lines : List (List Char)) : Option (List Word) := lines.mapM assembleText

/-- A hexadecimal digit, in capitals. -/
def hexChar (n : Fin 16) : Char := Char.ofNat (if n.val < 10 then 48 + n.val else 55 + n.val)

/-- The text that writes an instruction (R74). -/
def textOf : Instr → List Char
  | .halt => ['H', 'A', 'L', 'T']
  | .ret => ['R', 'E', 'T']
  | .call addr =>
    ['C', 'A', 'L', 'L', ' ', '0', 'x', hexChar (addr.extractLsb' 8 4).toFin,
     hexChar (addr.extractLsb' 4 4).toFin, hexChar (addr.extractLsb' 0 4).toFin]
  | .add x y => ['A', 'D', 'D', ' ', 'V', hexChar x, ',', ' ', 'V', hexChar y]

/-! ### The host's numbering of an instruction's bits -/

/-- The instruction word whose bits, numbered from bit 0 of the one word an instruction has, are those of `w`;
the bits from `nbits` up are zero. -/
def tableWord (nbits w : Nat) : Word := BitVec.ofNat 16 (w % 2 ^ nbits)

/-- The instruction the decoder reads from that word, laid out in memory as the hardware stores it. -/
def decodeTableWord (nbits w : Nat) : Option Instr :=
  match decodeBytes (bytesOfWord (tableWord nbits w)) with
  | .ok (i, _) => some i
  | .error _ => none

end Sys2Proof
end

