-- ==== Sys2Proof/Machine/State.lean ====
section
/-! DEFINITION. Everything the spec gives the machine (10_state.md section 1 and R20 to R39), as plain data,
its value at construction (70_reset_and_hazards.md R117 to R119), and the reasons a step can stop. -/

namespace Sys2Proof.Machine

/-- The run state: RUNNING, HALTED, FAULTED (R33). -/
inductive Status where
  | running
  | halted
  | faulted
  deriving DecidableEq, Repr

/-- The four faults the core raises (R34, R99 to R102). -/
inductive FaultReason where
  /-- The fetch unit: the fetch would read past the end of memory (R99). -/
  | addressOutOfRange
  /-- The dispatcher: the word matches none of the four patterns (R100). -/
  | unimplementedOpcode
  /-- CALL on a full call stack (R101). -/
  | stackOverflow
  /-- RET on an empty call stack (R102). -/
  | stackUnderflow
  deriving DecidableEq, Repr

/-- The record of the fault that stopped the run (R34). -/
structure FaultRecord where
  reason : FaultReason
  /-- The `fetch_pc` of the failing step (R86). -/
  addr : Word
  /-- The fetched instruction; `none` where nothing was fetched (R103). -/
  raw : Option Word
  deriving DecidableEq, Repr

/-- The byte memory: (address, byte) pairs in the canonical form of `Memory.wf`, addresses strictly rising and
no byte listed that equals what an unlisted address reads as. -/
abbrev Memory := List Host.Cell

/-- What an address no cell lists reads as: 0x00, its value at construction (R36, R117). -/
def Memory.unlisted : Byte := 0x00#8

/-- The machine's whole state. -/
structure State where
  /-- MEM_SIZE and STACK_DEPTH, fixed for the life of the machine (R10, R40). -/
  cfg : Config
  /-- The general registers x[0] to x[15], named V0 to VF; x[15] is the carry register (R20, R22, R27). -/
  regs : Vector Byte 16
  /-- The program counter (R24). -/
  pc : Word
  /-- The stack pointer, the count of call-stack entries in use (R30). -/
  sp : Nat
  /-- The call-stack memory, stack[0] to stack[STACK_DEPTH-1] (R31). -/
  stack : List Word
  /-- The byte memory mem[0] to mem[MEM_SIZE-1] (R36). -/
  mem : Memory
  /-- The run state (R33). -/
  status : Status
  /-- The fault record, `none` while the run state is not FAULTED (R34). -/
  fault : Option FaultRecord
  deriving DecidableEq, Repr

/-- The reasons a step answers no next state. A core fault (R98) is first a next state, whose `status` is
FAULTED and whose `fault` holds the record (R84, R103); the step after it is the stop below. -/
inductive Fault where
  /-- The step function, in a state with `status` HALTED: "the core takes no step" (R76). It is none of the
  core's four faults: the run has ended cleanly (R128). Safe: the hardware takes no step here either
  (notes/assumptions/2.md). -/
  | halted
  /-- The step function, in a state with `status` FAULTED: "the core takes no step" (R76). It carries the
  state's fault record, the outcome by which a model represents FAULTED (R98). Safe: the hardware takes no
  step here either (notes/assumptions/2.md). -/
  | faulted (record : Option FaultRecord)
  deriving DecidableEq, Repr

/-- The reasons a step is refused. -/
inductive Refusal where
  /-- An arm of the dispatch with no meaning yet. No arm answers it: all four instructions have their meaning.
  Safe. -/
  | notModelled (mnemonic : String)
  deriving DecidableEq, Repr

/-- The machine right after construction, the reset of this hardware: memory, registers, call stack and `sp`
zero (R117), `pc` 0x0000, `fault` none, `status` RUNNING (R118). -/
def State.construct (c : Config) : State where
  cfg := c
  regs := Vector.replicate 16 0x00#8
  pc := 0x0000#16
  sp := 0
  stack := List.replicate c.stackDepth 0x0000#16
  mem := []
  status := .running
  fault := none

/-- Construction in the reference configuration (notes/assumptions/1.md). -/
def State.reset : State := State.construct Config.reference

end Sys2Proof.Machine
end

