-- ==== Sys2Proof/Machine/Operands.lean ====
section
/-! DEFINITION. The operand forms: a register named by a 4-bit field (R64) and CALL's absolute 12-bit target
(R63). The instruction set has no immediate and no other form (R65). -/

namespace Sys2Proof.Machine

/-- `x[i]`: the register file's read (R13, R21). -/
def State.getReg (s : State) (i : RegIdx) : Byte := s.regs[i]

/-- `x[i] <- v`: the register file's write (R13, R21). -/
def State.setReg (s : State) (i : RegIdx) (v : Byte) : State :=
  { s with regs := s.regs.set i.val v i.isLt }

/-- `zext_16(ADDR)`: no scaling, no sign extension, not relative to the pc (R63). -/
def callTarget (addr : BitVec 12) : Word := addr.setWidth 16

end Sys2Proof.Machine
end

