-- ==== Sys2Proof/Machine/Flags.lean ====
section
/-! DEFINITION. The ALU's 8-bit add with carry-out, and the one flag, the carry in `x[15]`
(R27 to R29, R87, R88). -/

namespace Sys2Proof.Machine

/-- `t <- a + b` on integers, 0 to 510 (R12, R87). -/
def sumOf (a b : Byte) : Nat := a.toNat + b.toNat

/-- `t[7:0]`, the sum modulo 256 (R88). -/
def wrappedSum (t : Nat) : Byte := BitVec.ofNat 8 t

/-- The carry as a full 8-bit value: 0x01 when the true sum is at least 256, else 0x00 (R27, R29). -/
def carryOf (t : Nat) : Byte := if 256 ≤ t then 0x01#8 else 0x00#8

/-- ADD's write of the flag, unconditional (R27). -/
def State.setCarry (s : State) (t : Nat) : State := s.setReg carryReg (carryOf t)

end Sys2Proof.Machine
end

