-- ==== Sys2Proof/Machine/Ops.lean ====
section
/-! DEFINITION. The named operations over memory, call stack and run state: `MemRead` and `MemWrite` (R15), the
fetch unit (R77, R78), the advance of the pc (R79), CALL's push and RET's pop (R90, R92), and taking a fault
(R16, R98). -/

namespace Sys2Proof.Machine

/-! ### Memory -/

/-- `mem[a]`. -/
def Memory.read : Memory → Nat → Byte
  | [], _ => Memory.unlisted
  | cell :: rest, a => if cell.1 = a then cell.2 else Memory.read rest a

/-- One listed cell, or none where the byte is what an unlisted address reads as. -/
def Memory.listed (a : Nat) (v : Byte) : Memory :=
  if v = Memory.unlisted then [] else [(a, v)]

/-- `mem[a] <- v`, keeping the canonical form. -/
def Memory.write : Memory → Nat → Byte → Memory
  | [], a, v => Memory.listed a v
  | cell :: rest, a, v =>
    if a < cell.1 then Memory.listed a v ++ cell :: rest
    else if a = cell.1 then Memory.listed a v ++ rest
    else cell :: Memory.write rest a v

/-- The canonical form: addresses strictly rising, and no listed byte that an unlisted address reads as. -/
def Memory.wf : Memory → Bool
  | [] => true
  | cell :: rest =>
    cell.2 != Memory.unlisted && rest.all (fun c => cell.1 < c.1) && Memory.wf rest

/-- Every listed address exists: it is below MEM_SIZE (R36, R45). -/
def Memory.within (memSize : Nat) (m : Memory) : Bool := m.all (fun cell => cell.1 < memSize)

/-- `MemRead(a, 2) = mem[a] ++ mem[a+1]`, big-endian (R15, R47). The fetch unit is its only user, behind its
bounds check. -/
def Memory.word (m : Memory) (a : Nat) : Word := wordOfBytes (m.read a) (m.read (a + 1))

/-- `MemWrite(a, n, v)` with v's n bytes given highest first, so that the first goes to the lowest address
(R15, R48). No instruction performs it; only the loader does, before a run (R56). -/
def Memory.writeBytes : Memory → Nat → List Byte → Memory
  | m, _, [] => m
  | m, a, b :: bs => Memory.writeBytes (m.write a b) (a + 1) bs

/-! ### Taking a fault -/

/-- `raise F(info)`, the one way a fault is taken: `status <- FAULTED` and `fault <- {reason, addr, raw}`; every
other piece of state keeps its value (R16, R98). There is no handler, nothing is saved elsewhere and the pc
is not redirected (R106); no return from a fault exists (R107), so no operation undoes this one. -/
def takeFault (reason : FaultReason) (addr : Word) (raw : Option Word) (s : State) : State :=
  { s with status := .faulted, fault := some { reason := reason, addr := addr, raw := raw } }

/-- `fetch_pc` after the advance: the address this step's fetch began at (R25, R86). -/
def State.fetchPc (s : State) : Word := s.pc - 2#16

/-- A fault taken after the advance: `addr = fetch_pc`, `raw = instr` (R86, R103). -/
def takeDispatchFault (reason : FaultReason) (raw : Word) (s : State) : State :=
  takeFault reason s.fetchPc (some raw) s

/-- A fault of the fetch unit, taken before the advance: `addr = fetch_pc`, nothing fetched (R77, R99). -/
def takeFetchFault (s : State) : State := takeFault .addressOutOfRange s.pc none s

/-! ### Fetch and advance -/

/-- The fetch unit: the bounds check on integers, never wrapped (R50, R77), and then the big-endian read (R78).
`none` where the check fails. No alignment is asked (R49). -/
def fetch (s : State) : Option Word :=
  if s.cfg.memSize ≤ s.pc.toNat + 1 then none else some (s.mem.word s.pc.toNat)

/-- `pc <- fetch_pc + 2`, unconditionally, after a fetch that succeeded and before decode (R79). -/
def advance (s : State) : State := { s with pc := s.pc + 2#16 }

/-! ### The call stack -/

/-- `stack[i]`. An index the list does not hold reads as 0x0000; no state that meets `State.Wf` asks for one
(notes/assumptions/5.md). -/
def State.stackAt (s : State) (i : Nat) : Word := s.stack.getD i 0x0000#16

/-- CALL's precondition fails: `sp ≥ STACK_DEPTH` (R90, R91). -/
abbrev State.stackFull (s : State) : Prop := s.cfg.stackDepth ≤ s.sp

/-- RET's precondition fails: `sp = 0` (R92, R93). -/
abbrev State.stackEmpty (s : State) : Prop := s.sp = 0

/-- `stack[sp] <- pc; sp <- sp + 1`: the pushed pc is the advanced one, the return address (R90, R125). -/
def pushReturn (s : State) : State :=
  { s with stack := s.stack.set s.sp s.pc, sp := s.sp + 1 }

/-- `sp <- sp - 1; pc <- stack[sp]`: the popped entry stays in the call-stack memory (R32, R92). -/
def popReturn (s : State) : State :=
  { s with sp := s.sp - 1, pc := s.stackAt (s.sp - 1) }

/-- `pc <- target`. -/
def jump (target : Word) (s : State) : State := { s with pc := target }

/-! ### Placing an instruction word -/

/-- `s` with a word's two bytes placed where the next fetch reads (R48). -/
def placeAtPc (w : Word) (s : State) : State :=
  { s with mem := s.mem.writeBytes s.pc.toNat (bytesOfWord w) }

end Sys2Proof.Machine
end

