-- ==== Sys2Proof/Machine/Arithmetic.lean ====
section
/-! DEFINITION. The arithmetic family: ADD (41_arithmetic.md). -/

namespace Sys2Proof.Machine

/-- ADD Vx, Vy, after the front end (R87): both operands are read before any write, the wrapped sum goes to
`x[X]`, and the carry goes to `x[15]` last and always, so that with X = 15 the carry stays (R89). -/
def execAdd (x y : RegIdx) (s : State) : Host.Outcome State Fault Refusal :=
  let a := s.getReg x
  let b := s.getReg y
  let t := sumOf a b
  .next ((s.setReg x (wrappedSum t)).setCarry t)

end Sys2Proof.Machine
end

