-- ==== Sys2Proof/Machine/Subroutine.lean ====
section
/-! DEFINITION. The subroutine family: CALL and RET (42_subroutine.md). -/

namespace Sys2Proof.Machine

/-- CALL nnn, after the front end (R90): on a full call stack it takes StackOverflow (R91); else it pushes the
advanced pc and loads the target. -/
def execCall (addr : BitVec 12) (s : State) : Host.Outcome State Fault Refusal :=
  if s.stackFull then .next (takeDispatchFault .stackOverflow (encode (.call addr)) s)
  else .next (jump (callTarget addr) (pushReturn s))

/-- RET, after the front end (R92): on an empty call stack it takes StackUnderflow (R93); else it pops the
return address into the pc. -/
def execRet (s : State) : Host.Outcome State Fault Refusal :=
  if s.stackEmpty then .next (takeDispatchFault .stackUnderflow (encode .ret) s)
  else .next (popReturn s)

end Sys2Proof.Machine
end

