-- ==== Sys2Proof/Machine/System.lean ====
section
/-! DEFINITION. The system family: HALT (43_system.md). -/

namespace Sys2Proof.Machine

/-- HALT, after the front end (R96): `status <- HALTED`, and nothing else. -/
def execHalt (s : State) : Host.Outcome State Fault Refusal :=
  .next { s with status := .halted }

end Sys2Proof.Machine
end

