-- ==== Sys2Proof/Machine/Cycle.lean ====
section
/-! DEFINITION. One instruction cycle, Fetch→Advance→Decode→Dispatch (R17, R83), of a machine whose `status` is
RUNNING. -/

namespace Sys2Proof.Machine

/-- Decode and dispatch of a fetched word, after the advance: a listed word runs its instruction, any other word
takes UnimplementedOpcode with the raw word (R71, R81, R100). -/
def dispatchWord (instr : Word) (s : State) : Host.Outcome State Fault Refusal :=
  match decode instr with
  | .ok i => exec i s
  | .error _ => .next (takeDispatchFault .unimplementedOpcode instr s)

/-- The whole cycle (R83). -/
def cycle (s : State) : Host.Outcome State Fault Refusal :=
  match fetch s with
  | none => .next (takeFetchFault s)
  | some instr => dispatchWord instr (advance s)

end Sys2Proof.Machine
end

