-- ==== Sys2Proof/Machine/Step.lean ====
section
/-! DEFINITION. The step function (R76, R83), and where the host places an instruction word. -/

namespace Sys2Proof.Machine

/-- One step. It exists only while `status` is RUNNING (R76); HALTED and FAULTED are terminal, and there the
step function stops under the run state's own name (notes/assumptions/2.md). -/
def step (s : State) : Host.Outcome State Fault Refusal :=
  match s.status with
  | .running => cycle s
  | .halted => .fault .halted
  | .faulted => .fault (.faulted s.fault)

/-- `s` with an instruction word stored at the pc, where the next step fetches (notes/assumptions/4.md). -/
def State.withFetchWord (s : State) (nbits w : Nat) : State := placeAtPc (tableWord nbits w) s

end Sys2Proof.Machine
end

