-- ==== Sys2Proof/Machine/Interface.lean ====
section
/-! DEFINITION. The block interface (10_state.md section 9): launch (R41, R120), runs (R42, R85, R128),
observation (R43), and the numbers the spec gives the run states and the fault reasons (R33, R34). -/

namespace Sys2Proof.Machine

/-! ### Numbers -/

/-- RUNNING = 0, HALTED = 1, FAULTED = 2 (R33). -/
def Status.code : Status → BitVec 2
  | .running => 0#2
  | .halted => 1#2
  | .faulted => 2#2

/-- AddressOutOfRange 1, UnimplementedOpcode 2, StackOverflow 3, StackUnderflow 4 (R34, R99 to R102). -/
def FaultReason.code : FaultReason → Nat
  | .addressOutOfRange => 1
  | .unimplementedOpcode => 2
  | .stackOverflow => 3
  | .stackUnderflow => 4

/-! ### Launch -/

/-- What the host supplies between construction and the run (R41). It has no `sp`, `stack`, `status` or `fault`:
the host cannot set them. -/
structure Launch where
  /-- The `MemWrite`s of the loader, in order: an address and the bytes from there on. -/
  image : List (Nat × List Byte)
  /-- The initial register snapshot, all 16 registers. -/
  regs : Vector Byte 16
  /-- The start address PC0. -/
  pc0 : Word
  deriving DecidableEq, Repr

/-- Why a launch is refused. -/
inductive LaunchRefusal where
  /-- The configuration is not one R7 and R8 admit (93_implementation_defined.md, "refuse"). -/
  | configurationNotAdmitted
  /-- A `MemWrite` of the loader leaves `mem` (R15). -/
  | imageOutOfRange
  deriving DecidableEq, Repr

/-- The loader's writes, in order, over zeros (R117, R120). -/
def loadImage (image : List (Nat × List Byte)) : Memory :=
  image.foldl (fun m chunk => m.writeBytes chunk.1 chunk.2) []

/-- The launch state (R120): construction, overwritten by what the host supplies. A second run is a new
construction and a new launch (R132). -/
def launch (c : Config) (l : Launch) : Except LaunchRefusal State :=
  if ¬ c.Ok then .error .configurationNotAdmitted
  else if imageInRange c l.image = false then .error .imageOutOfRange
  else .ok { State.construct c with mem := loadImage l.image, regs := l.regs, pc := l.pc0 }

/-- The `MemWrite` that places instruction words, big-endian, from an address on (R48, R122). -/
def placeWords (a : Nat) (ws : List Word) : Nat × List Byte := (a, ws.flatMap bytesOfWord)

/-! ### Runs -/

/-- How an execution under a step ceiling ends: in one of the two ends of a run (R128), or at the ceiling, which
is an outcome of the executor's own, neither HALTED nor a core fault (R110). -/
inductive RunResult where
  | halted (s : State)
  | faulted (s : State)
  | outOfFuel (s : State)
  deriving DecidableEq, Repr

/-- Steps from the launch state until `status ≠ RUNNING` (R42, R85), at most `fuel` of them. The executor looks
at `status` alone; the core has no stop, pause or cancel input (R42). The two arms after a step that answers no next
state are never taken: every running machine steps (R84). -/
def runFor (fuel : Nat) (s : State) : RunResult :=
  match s.status with
  | .halted => .halted s
  | .faulted => .faulted s
  | .running =>
    match fuel with
    | 0 => .outOfFuel s
    | n + 1 =>
      match step s with
      | .next t => runFor n t
      | .fault _ => .outOfFuel s
      | .refused _ => .outOfFuel s

/-! ### Observation -/

/-- What the host reads after the run stops (R43). -/
structure Observation where
  status : Status
  fault : Option FaultRecord
  regs : Vector Byte 16
  pc : Word
  sp : Nat
  stack : List Word
  mem : Memory
  deriving DecidableEq, Repr

/-- The host reads the state only after the run has stopped (R43, R44). -/
def observe (s : State) : Option Observation :=
  match s.status with
  | .running => none
  | .halted | .faulted =>
    some { status := s.status, fault := s.fault, regs := s.regs, pc := s.pc, sp := s.sp, stack := s.stack,
           mem := s.mem }

/-- The result register by the source's convention, register 0 (R129). -/
def Observation.result (o : Observation) : Byte := o.regs[0]

end Sys2Proof.Machine
end

