-- ==== Sys2Proof/Safety.lean ====
section
/-! DEFINITION. The terms claims are stated in: the invariant of every reachable state, the spec's own listing of
the step over plain numbers, counts of words, steps in a row, balanced paths, and the bound on the length of a run. -/

namespace Sys2Proof.Machine

/-! ### The invariant -/

/-- What relates the fields of a state to each other (R7, R8, R26, R30, R31, R36): the configuration is admitted,
`sp` counts entries of the call stack, the call stack has STACK_DEPTH entries and holds only addresses at most
MEM_SIZE, and memory is in canonical form inside 0 to MEM_SIZE-1. -/
structure State.Wf (s : State) : Prop where
  cfg_ok : s.cfg.Ok
  sp_le : s.sp ≤ s.cfg.stackDepth
  stack_len : s.stack.length = s.cfg.stackDepth
  stack_le : ∀ v ∈ s.stack, v.toNat ≤ s.cfg.memSize
  mem_wf : Memory.wf s.mem = true
  mem_within : Memory.within s.cfg.memSize s.mem = true

/-- The row of R103's table that a fault record stands for: `fault.addr`, `fault.raw`, the pc and the call stack
pointer of a faulted state agree, and the record's reason is the true one. -/
def State.matchesRecord (s : State) (r : FaultRecord) : Prop :=
  match r.reason, r.raw with
  | .addressOutOfRange, none => s.pc = r.addr ∧ s.cfg.memSize ≤ r.addr.toNat + 1
  | .unimplementedOpcode, some w =>
    s.pc = r.addr + 2#16 ∧ w = s.mem.word r.addr.toNat ∧ ∀ row ∈ opcodeTable, row.matches w = false
  | .stackOverflow, some w =>
    s.pc = r.addr + 2#16 ∧ w = s.mem.word r.addr.toNat ∧ callRow.matches w = true ∧ s.sp = s.cfg.stackDepth
  | .stackUnderflow, some w =>
    s.pc = r.addr + 2#16 ∧ w = s.mem.word r.addr.toNat ∧ w = 0x00EE#16 ∧ s.sp = 0
  | _, _ => False

/-- `fault` is `none` while `status ≠ FAULTED`, and is a true record of the fault when `status = FAULTED`
(R34, R103). -/
def State.FaultWf (s : State) : Prop :=
  match s.status, s.fault with
  | .running, none => True
  | .halted, none => True
  | .faulted, some r => s.matchesRecord r
  | _, _ => False

/-- The invariant every step keeps. -/
structure State.Inv (s : State) : Prop where
  wf : s.Wf
  fault_wf : s.FaultWf

/-! ### The listing of R83 -/

/-- The listing's `raise F(addr = fetch_pc, raw = instr)`, after the advance to `pc`. -/
def listingRaise (reason : FaultReason) (fetchPc instr : Nat) (pc : Word) (s : State) : State :=
  { s with
    pc := pc
    status := .faulted
    fault := some { reason := reason, addr := BitVec.ofNat 16 fetchPc, raw := some (BitVec.ofNat 16 instr) } }

/-- The step as R83 lists it, written over plain numbers and apart from the model's fetch unit, decoder, encoder
and meanings: fields by division, one case over the four nibbles. -/
def listing (s : State) : State :=
  let fetchPc := s.pc.toNat
  if fetchPc + 1 ≥ s.cfg.memSize then
    { s with
      status := .faulted
      fault := some { reason := .addressOutOfRange, addr := BitVec.ofNat 16 fetchPc, raw := none } }
  else
    let instr := 256 * (s.mem.read fetchPc).toNat + (s.mem.read (fetchPc + 1)).toNat
    let pc := BitVec.ofNat 16 (fetchPc + 2)
    let g := instr / 4096
    let x := instr / 256 % 16
    let y := instr / 16 % 16
    let d := instr % 16
    let addr := instr % 4096
    if g = 0 ∧ x = 0 ∧ y = 0 ∧ d = 0 then { s with pc := pc, status := .halted }
    else if g = 0 ∧ x = 0 ∧ y = 14 ∧ d = 14 then
      if s.sp = 0 then listingRaise .stackUnderflow fetchPc instr pc s
      else { s with sp := s.sp - 1, pc := s.stack.getD (s.sp - 1) 0#16 }
    else if g = 2 then
      if s.sp ≥ s.cfg.stackDepth then listingRaise .stackOverflow fetchPc instr pc s
      else { s with stack := s.stack.set s.sp pc, sp := s.sp + 1, pc := BitVec.ofNat 16 addr }
    else if g = 8 ∧ d = 4 then
      let t := (s.regs.toList.getD x 0#8).toNat + (s.regs.toList.getD y 0#8).toNat
      { s with
        pc := pc
        regs := (s.regs.setIfInBounds x (BitVec.ofNat 8 (t % 256))).setIfInBounds 15 (if t ≥ 256 then 1#8 else 0#8) }
    else listingRaise .unimplementedOpcode fetchPc instr pc s

/-! ### Words -/

/-- How many of the 65536 words decode to an instruction of which `p` holds. -/
def wordCount (p : Instr → Bool) : Nat :=
  (List.range 65536).countP fun n => (decode (BitVec.ofNat 16 n)).toOption.any p

/-! ### Steps in a row -/

/-- `n` steps lead from `s` to `t`. -/
def StepsTo : Nat → State → State → Prop
  | 0, s, t => s = t
  | n + 1, s, t => ∃ u, step s = .next u ∧ StepsTo n u t

/-- `n` steps lead from `s` to `t`, and in every state on the way, both ends included, at least `k` call-stack
entries are in use: the balanced code of R94, inside a frame of depth `k`. -/
def StepsInFrame (k : Nat) : Nat → State → State → Prop
  | 0, s, t => k ≤ s.sp ∧ s = t
  | n + 1, s, t => k ≤ s.sp ∧ ∃ u, step s = .next u ∧ StepsInFrame k n u t

/-- `w` is the word at the pc of a running state: the next step fetches it. -/
abbrev State.fetches (s : State) (w : Word) : Prop := s.status = .running ∧ fetch s = some w

/-! ### The length of a run -/

/-- K of R127: the most steps a frame takes of its own. -/
def frameSteps (memSize : Nat) : Nat := memSize / 2 + 1

/-- T of R127, by the number of levels left above a frame: T(STACK_DEPTH) = K, and
T(k) = K · (1 + T(k+1)). -/
def runBoundAt (frame : Nat) : Nat → Nat
  | 0 => frame
  | levels + 1 => frame * (1 + runBoundAt frame levels)

/-- T(0) of R127. -/
def runBound (c : Config) : Nat := runBoundAt (frameSteps c.memSize) c.stackDepth

end Sys2Proof.Machine
end

