-- ==== Sys2Proof/Certificates/Slice0/Obligations.lean ====
section
/-! DEFINITION. The statements about the machine, each with the rule of the spec it comes from.
Where a statement rests on one of the spec's own decisions (92_eei_decisions.md, D<n>), on an inference the spec
marks [derived], or on a choice of the model's (notes/assumptions/<n>.md), its docstring says so. -/

open Sys2Proof Sys2Proof.Machine

/-! ### Encoding -/

/-- Decode and encode agree: the two bytes of any instruction, at every operand value, decode to that instruction
and leave the bytes after them. (Derived: R60 to R69 together.) -/
def Obligations.EncodedBytesDecodeToTheInstruction : Prop :=
  ∀ (i : Instr) (rest : List Byte), decodeBytes (encodeBytes i ++ rest) = .ok (i, rest)

/-- The other direction: a word that decodes is the encoding of what it decodes to, so that each instruction has
one word. (Derived: R60 to R69 together.) -/
def Obligations.DecodedWordIsTheEncoding : Prop :=
  ∀ (w : Word) (i : Instr), decode w = .ok i → encode i = w

/-- The decoder selects exactly the words of the four patterns, mask and match, with their operand fields
(R66 to R69). -/
def Obligations.DecoderSelectsByMaskAndMatch : Prop :=
  ∀ w : Word,
    (decode w = .ok .halt ↔ w &&& 0xFFFF#16 = 0x0000#16) ∧
    (decode w = .ok .ret ↔ w &&& 0xFFFF#16 = 0x00EE#16) ∧
    (∀ a : BitVec 12, decode w = .ok (.call a) ↔ w &&& 0xF000#16 = 0x2000#16 ∧ a.toNat = w.toNat % 4096) ∧
    (∀ x y : RegIdx, decode w = .ok (.add x y) ↔
      w &&& 0xF00F#16 = 0x8004#16 ∧ x.val = w.toNat / 256 % 16 ∧ y.val = w.toNat / 16 % 16)

/-- The table's rows are disjoint, and a word is an instruction iff it has one of their patterns.
(Derived: R70, an inference the spec marks, and R71, its decision D21.) -/
def Obligations.TableRowsAreDisjointAndCoverTheInstructions : Prop :=
  ∀ w : Word,
    (∀ r1 ∈ opcodeTable, ∀ r2 ∈ opcodeTable, r1.matches w = true → r2.matches w = true → r1 = r2) ∧
    ((∃ i, decode w = .ok i) ↔ ∃ row ∈ opcodeTable, row.matches w = true) ∧
    ((∀ row ∈ opcodeTable, row.matches w = false) ↔ decode w = .error (.unimplementedOpcode w))

/-- "Of the 65536 words, 4354 are instructions": 1 HALT, 1 RET, 4096 CALL and 256 ADD (the text under R70, an
inference the spec marks). -/
def Obligations.FourThousandThreeHundredFiftyFourWordsAreInstructions : Prop :=
  wordCount (fun _ => true) = 4354 ∧
  wordCount (fun i => i == .halt) = 1 ∧
  wordCount (fun i => i == .ret) = 1 ∧
  wordCount (fun i => match i with | .call _ => true | .halt | .ret | .add _ _ => false) = 4096 ∧
  wordCount (fun i => match i with | .add _ _ => true | .halt | .ret | .call _ => false) = 256

/-- Decode extracts the five fields of every word, whatever its group (R61, R80): the nibbles from the top down,
and ADDR, which is X ++ Y ++ D. -/
def Obligations.FieldsAreTheNibblesAndTheLowTwelveBits : Prop :=
  ∀ w : Word,
    (fieldsOf w).g.toNat = w.toNat / 4096 ∧
    (fieldsOf w).x.toNat = w.toNat / 256 % 16 ∧
    (fieldsOf w).y.toNat = w.toNat / 16 % 16 ∧
    (fieldsOf w).d.toNat = w.toNat % 16 ∧
    (fieldsOf w).addr = (fieldsOf w).x ++ (fieldsOf w).y ++ (fieldsOf w).d

/-- Words written out from the spec's encodings (95_test_vectors.md, section 2.1) decode to what they stand for. -/
def Obligations.WordsOfTheSpecDecode : Prop :=
  decode 0x0000#16 = .ok .halt ∧ decode 0x00EE#16 = .ok .ret ∧ decode 0x2ABC#16 = .ok (.call 0xABC#12) ∧
  decode 0x80E4#16 = .ok (.add 0 14) ∧ decode 0x8F14#16 = .ok (.add 15 1) ∧
  decode 0x8015#16 = .error (.unimplementedOpcode 0x8015#16)

/-- The assembler's text of an instruction assembles to its word, and so does its line; operands out of R74's ranges
are refused; a raw word is placed as written. (Derived: R74, the spec's decision D18; the spacing of the text is the
model's choice, notes/assumptions/9.md.) -/
def Obligations.AssemblerWritesTheEncoding : Prop :=
  (∀ i : Instr, assembleText (textOf i) = some (encode i)) ∧
  (∀ i : Instr, assemble (AsmLine.ofInstr i) = some (encode i)) ∧
  (∀ n, 0xFFF < n → assemble (.call n) = none) ∧
  (∀ x y, 15 < x ∨ 15 < y → assemble (.add x y) = none) ∧
  (∀ w : Word, assemble (.word w.toNat) = some w)

/-! ### Fetch and dispatch -/

/-- The fetch bounds check, on integers: a fetch succeeds iff pc + 1 < MEM_SIZE; where it fails, the step takes
AddressOutOfRange with `addr = fetch_pc` and no raw word, the pc is not advanced and nothing else changes
(R50, R77, which gives the record itself; it is also the spec's decision D9). -/
def Obligations.FetchPastTheEndFaults : Prop :=
  ∀ s : State,
    ((∃ w, fetch s = some w) ↔ s.pc.toNat + 1 < s.cfg.memSize) ∧
    (s.status = .running → s.pc.toNat + 1 ≥ s.cfg.memSize →
      step s = .next { s with
        status := .faulted
        fault := some { reason := .addressOutOfRange, addr := s.pc, raw := none } })

/-- A fetch in bounds reads two bytes at the pc, even or odd, the one at the lower address as the high byte
(R47, R78). -/
def Obligations.FetchReadsABigEndianPair : Prop :=
  ∀ s : State, s.pc.toNat + 1 < s.cfg.memSize →
    ∃ w, fetch s = some w ∧
      w.extractLsb' 8 8 = s.mem.read s.pc.toNat ∧ w.extractLsb' 0 8 = s.mem.read (s.pc.toNat + 1)

/-- A step runs the decoded instruction: where the two bytes at the pc are in bounds and decode to `i`, the step of
a running machine is `exec i` on the state whose pc has advanced by 2. -/
def Obligations.StepRunsTheDecodedInstruction : Prop :=
  ∀ (s : State) (i : Instr) (rest : List Byte), s.status = .running → s.pc.toNat + 1 < s.cfg.memSize →
    decodeBytes (s.mem.read s.pc.toNat :: s.mem.read (s.pc.toNat + 1) :: rest) = .ok (i, rest) →
    step s = exec i { s with pc := s.pc + 2#16 }

/-- Dispatch selects exactly one of five outcomes by the nibbles; the fifth is UnimplementedOpcode, taken after the
advance (R81, which states the faulted pc itself; it is also the spec's decision D10). -/
def Obligations.DispatchSelectsOneOfFiveOutcomes : Prop :=
  ∀ (s : State) (w : Word), s.fetches w →
    let f := fieldsOf w
    let isHalt := f.g = 0x0#4 ∧ f.x = 0x0#4 ∧ f.y = 0x0#4 ∧ f.d = 0x0#4
    let isRet := f.g = 0x0#4 ∧ f.x = 0x0#4 ∧ f.y = 0xE#4 ∧ f.d = 0xE#4
    let isCall := f.g = 0x2#4
    let isAdd := f.g = 0x8#4 ∧ f.d = 0x4#4
    let s1 := { s with pc := s.pc + 2#16 }
    (isHalt → step s = exec .halt s1) ∧
    (isRet → step s = exec .ret s1) ∧
    (isCall → step s = exec (.call f.addr) s1) ∧
    (isAdd → step s = exec (.add f.x.toFin f.y.toFin) s1) ∧
    (¬ isHalt → ¬ isRet → ¬ isCall → ¬ isAdd →
      step s = .next { s1 with
        status := .faulted
        fault := some { reason := .unimplementedOpcode, addr := s.pc, raw := some w } })

/-- What the pc holds at the end of a step (R25): unchanged at a fetch fault; the target of a CALL that succeeds,
which has pushed the advanced pc; the popped entry of a RET that succeeds; else `fetch_pc + 2`. (R25 states the pc
of a HALT and of a decode-stage fault itself; they are also the spec's decisions D10 and D11.) -/
def Obligations.PcAtTheEndOfAStep : Prop :=
  ∀ s : State, s.status = .running →
    (fetch s = none → ∃ t, step s = .next t ∧ t.pc = s.pc) ∧
    (∀ w, fetch s = some w → ∃ t, step s = .next t ∧
      (∀ a, decode w = .ok (.call a) →
        if s.sp < s.cfg.stackDepth then t.pc = a.setWidth 16 ∧ t.stack = s.stack.set s.sp (s.pc + 2#16)
        else t.pc = s.pc + 2#16) ∧
      (decode w = .ok .ret → if 0 < s.sp then t.pc = s.stackAt (s.sp - 1) else t.pc = s.pc + 2#16) ∧
      ((∀ a, decode w ≠ .ok (.call a)) → decode w ≠ .ok .ret → t.pc = s.pc + 2#16))

/-- The pc never wraps: from a well-formed state the advance is exact and no step leaves the pc above 4096.
(Derived: R26, an inference the spec marks.) -/
def Obligations.PcNeverWraps : Prop :=
  ∀ (s t : State) (w : Word), s.Wf → s.fetches w → step s = .next t →
    (s.pc + 2#16).toNat = s.pc.toNat + 2 ∧ t.pc.toNat ≤ 4096

/-- The step is the listing of R83, for every running machine. (Derived: R83, whose faulted states, halted pc and order
of ADD's writes are the spec's decisions D9 to D12; in a state whose call stack has no entry at `sp - 1` the statement
rests on the model's choice that such an entry reads as 0x0000, notes/assumptions/5.md.) -/
def Obligations.StepIsTheListing : Prop :=
  ∀ s : State, s.status = .running → step s = .next (listing s)

/-! ### The instructions -/

/-- HALT completes: `status` becomes HALTED and nothing else changes. (Derived: R96, whose halted pc is the spec's
decision D11.) -/
def Obligations.HaltCompletes : Prop :=
  ∀ s : State, exec .halt s = .next { s with status := .halted }

/-- ADD completes for every register pair: `x[15]` gets the carry of the operands' true sum, `x[X]` with X ≠ 15 the
sum modulo 256, every other register and every other piece of state keeps its value. (Derived: R87 and R89, whose
order of writes, and so the case X = 15, is the spec's decision D12.) -/
def Obligations.AddCompletes : Prop :=
  ∀ (x y : RegIdx) (s : State), ∃ t, exec (.add x y) s = .next t ∧
    (∀ r : RegIdx, (t.getReg r).toNat =
      if r = 15 then (if (s.getReg x).toNat + (s.getReg y).toNat ≥ 256 then 1 else 0)
      else if r = x then ((s.getReg x).toNat + (s.getReg y).toNat) % 256
      else (s.getReg r).toNat) ∧
    t.pc = s.pc ∧ t.sp = s.sp ∧ t.stack = s.stack ∧ t.mem = s.mem ∧ (∀ a, t.mem.read a = s.mem.read a) ∧
    t.status = s.status ∧ t.fault = s.fault ∧ t.cfg = s.cfg

/-- The arithmetic laws of ADD (R88): the result is the sum modulo 256 and the carry the sum div 256; `ADD Vx, Vy`
and `ADD Vy, Vx` compute the same sum and carry into different destinations; for X = 15 the carry half holds. -/
def Obligations.AddIsExactUnsignedAddition : Prop :=
  ∀ (x y : RegIdx) (s : State), ∃ t u, exec (.add x y) s = .next t ∧ exec (.add y x) s = .next u ∧
    (t.getReg 15).toNat = ((s.getReg x).toNat + (s.getReg y).toNat) / 256 ∧
    (u.getReg 15).toNat = ((s.getReg x).toNat + (s.getReg y).toNat) / 256 ∧
    (x ≠ 15 → (t.getReg x).toNat = ((s.getReg x).toNat + (s.getReg y).toNat) % 256) ∧
    (y ≠ 15 → (u.getReg y).toNat = ((s.getReg x).toNat + (s.getReg y).toNat) % 256)

/-- ADD as a step: a running machine that fetches 0x8xy4 adds register y into register x and goes on at the next
instruction. (Derived: R87, whose order of writes is the spec's decision D12.) -/
def Obligations.AddWordSteps : Prop :=
  ∀ (s : State) (x y : RegIdx), s.fetches (BitVec.ofNat 16 (0x8004 + 256 * x.val + 16 * y.val)) →
    ∃ t, step s = .next t ∧ t.status = .running ∧ t.pc = s.pc + 2#16 ∧
      (x ≠ 15 → (t.getReg x).toNat = ((s.getReg x).toNat + (s.getReg y).toNat) % 256) ∧
      (t.getReg 15).toNat = ((s.getReg x).toNat + (s.getReg y).toNat) / 256 ∧
      (∀ r : RegIdx, r ≠ x → r ≠ 15 → t.getReg r = s.getReg r) ∧
      t.sp = s.sp ∧ t.stack = s.stack ∧ t.mem = s.mem ∧ t.fault = s.fault ∧ t.cfg = s.cfg

/-- The one flag (R28, R29): ADD writes all 8 bits of `x[15]`, to 0x01 or 0x00; no other instruction changes it. -/
def Obligations.OnlyAddWritesTheCarryRegister : Prop :=
  ∀ (i : Instr) (s : State), ∃ t, exec i s = .next t ∧
    t.getReg 15 =
      match i with
      | .add x y => if (s.getReg x).toNat + (s.getReg y).toNat ≥ 256 then 0x01#8 else 0x00#8
      | .halt | .ret | .call _ => s.getReg 15

/-- CALL completes wherever the call stack has room: it pushes the pc it sees, the advanced one, and loads its
target. (Derived: R90, of which this is the succeeding half.) -/
def Obligations.CallCompletes : Prop :=
  ∀ (a : BitVec 12) (s : State), s.sp < s.cfg.stackDepth →
    exec (.call a) s = .next { s with stack := s.stack.set s.sp s.pc, sp := s.sp + 1, pc := a.setWidth 16 }

/-- RET completes wherever the call stack is not empty: it pops the most recent entry into the pc. (Derived: R92,
of which this is the succeeding half.) -/
def Obligations.RetCompletes : Prop :=
  ∀ s : State, 0 < s.sp → exec .ret s = .next { s with sp := s.sp - 1, pc := s.stackAt (s.sp - 1) }

/-- CALL on a full call stack traps: StackOverflow, nothing pushed, the target not loaded, the pc left advanced.
(Derived: R91 and R101, whose faulted state and record are the spec's decisions D9 and D10.) -/
def Obligations.CallOnAFullStackOverflows : Prop :=
  ∀ (a : BitVec 12) (s : State), s.cfg.stackDepth ≤ s.sp →
    exec (.call a) s = .next { s with
      status := .faulted
      fault := some { reason := .stackOverflow, addr := s.pc - 2#16, raw := some (0x2#4 ++ a) } }

/-- RET on an empty call stack traps: StackUnderflow, no entry read, the pc left advanced. (Derived: R93 and R102,
whose faulted state and record are the spec's decisions D9 and D10.) -/
def Obligations.RetOnAnEmptyStackUnderflows : Prop :=
  ∀ s : State, s.sp = 0 →
    exec .ret s = .next { s with
      status := .faulted
      fault := some { reason := .stackUnderflow, addr := s.pc - 2#16, raw := some 0x00EE#16 } }

/-- CALL nnn as a step: a running machine that fetches 0x2nnn pushes `fetch_pc + 2` at `stack[sp]`, counts
`sp` up and goes to nnn, or, with `sp ≥ STACK_DEPTH`, takes StackOverflow; registers and memory keep their values
either way. (Derived: R90 and R91, whose faulted state and record are the spec's decisions D9 and D10.) -/
def Obligations.CallWordSteps : Prop :=
  ∀ (s : State) (w : Word), s.Wf → s.fetches w → w &&& 0xF000#16 = 0x2000#16 →
    (s.cfg.stackDepth ≤ s.sp →
      step s = .next { s with
        pc := s.pc + 2#16
        status := .faulted
        fault := some { reason := .stackOverflow, addr := s.pc, raw := some w } }) ∧
    (s.sp < s.cfg.stackDepth → ∃ t, step s = .next t ∧
      t.stackAt s.sp = s.pc + 2#16 ∧ (∀ k, k ≠ s.sp → t.stackAt k = s.stackAt k) ∧
      t.stack.length = s.stack.length ∧ t.sp = s.sp + 1 ∧ t.pc.toNat = w.toNat % 4096 ∧
      t.regs = s.regs ∧ t.mem = s.mem ∧ t.status = .running ∧ t.fault = s.fault ∧ t.cfg = s.cfg)

/-- RET as a step: a running machine that fetches 0x00EE counts `sp` down and goes to the entry at the new
`sp`, which stays in the call stack, or, with `sp = 0`, takes StackUnderflow; registers and memory keep their
values either way. (Derived: R92 and R93, whose faulted state and record are the spec's decisions D9 and D10, and whose
kept entry is its decision D15.) -/
def Obligations.RetWordSteps : Prop :=
  ∀ s : State, s.fetches 0x00EE#16 →
    (s.sp = 0 →
      step s = .next { s with
        pc := s.pc + 2#16
        status := .faulted
        fault := some { reason := .stackUnderflow, addr := s.pc, raw := some 0x00EE#16 } }) ∧
    (∀ k, s.sp = k + 1 → step s = .next { s with sp := k, pc := s.stackAt k })

/-- HALT as a step: a running machine that fetches 0x0000 stops in HALTED with the pc advanced; registers, call
stack and memory keep their values. (Derived: R96, whose halted pc is the spec's decision D11.) -/
def Obligations.HaltWordSteps : Prop :=
  ∀ s : State, s.fetches 0x0000#16 → step s = .next { s with pc := s.pc + 2#16, status := .halted }

/-- What each operation may touch (R82). First the writes: HALT `status` only; RET `sp` and `pc`, or a fault; CALL
`stack[sp]`, `sp` and `pc`, or a fault; ADD `x[X]` and `x[15]`; none writes `mem`. Then the reads: changing `mem`,
`status` and `fault` beforehand changes nothing else afterwards, and each of the three is afterwards either as it was
or as the operation set it. -/
def Obligations.OperationsTouchOnlyTheirOwnState : Prop :=
  ∀ (i : Instr) (s : State), ∃ t, exec i s = .next t ∧
    t.cfg = s.cfg ∧ t.mem = s.mem ∧ (∀ a, t.mem.read a = s.mem.read a) ∧
    (match i with
      | .halt => t.regs = s.regs ∧ t.pc = s.pc ∧ t.sp = s.sp ∧ t.stack = s.stack ∧ t.fault = s.fault
      | .ret => t.regs = s.regs ∧ t.stack = s.stack ∧
          ((t.status = s.status ∧ t.fault = s.fault) ∨ (t.status = .faulted ∧ t.pc = s.pc ∧ t.sp = s.sp))
      | .call _ => t.regs = s.regs ∧ (∀ k, k ≠ s.sp → t.stackAt k = s.stackAt k) ∧
          ((t.status = s.status ∧ t.fault = s.fault) ∨
           (t.status = .faulted ∧ t.pc = s.pc ∧ t.sp = s.sp ∧ t.stack = s.stack))
      | .add x _ => (∀ r : RegIdx, r ≠ x → r ≠ 15 → t.getReg r = s.getReg r) ∧
          t.pc = s.pc ∧ t.sp = s.sp ∧ t.stack = s.stack ∧ t.status = s.status ∧ t.fault = s.fault) ∧
    (∀ (m : Memory) (st : Status) (f : Option FaultRecord),
      ∃ u, exec i { s with mem := m, status := st, fault := f } = .next u ∧
        u.mem = m ∧ u.regs = t.regs ∧ u.pc = t.pc ∧ u.sp = t.sp ∧ u.stack = t.stack ∧ u.cfg = t.cfg ∧
        ((t.status = s.status ∧ u.status = st) ∨ t.status = u.status) ∧
        ((t.fault = s.fault ∧ u.fault = f) ∨ t.fault = u.fault))

/-! ### Steps, faults and ends -/

/-- A step exists only while `status` is RUNNING (R76): from HALTED and from FAULTED the step function answers no
next state, so no number of steps leads to another state. -/
def Obligations.NoStepUnlessRunning : Prop :=
  ∀ s : State, s.status ≠ .running → (∀ t, step s ≠ .next t) ∧ (∀ n t, StepsTo n s t → t = s)

/-- The names under which the step function stops in the two terminal states, and that it refuses nothing. (The
names are the model's choice, notes/assumptions/2.md, beside R76 and R98.) -/
def Obligations.TerminalStatesStopByName : Prop :=
  ∀ s : State,
    (s.status = .halted → step s = .fault .halted) ∧
    (s.status = .faulted → step s = .fault (.faulted s.fault)) ∧
    (∀ r, step s ≠ .refused r)

/-- The step is total: every running machine has a next state, a running one, a halted one or a faulted one with its
record. (Derived: R84, an inference the spec marks.) -/
def Obligations.EveryRunningMachineSteps : Prop :=
  ∀ s : State, s.status = .running →
    ∃ t, step s = .next t ∧
      (t.status = .running ∨ t.status = .halted ∨ (t.status = .faulted ∧ ∃ r, t.fault = some r))

/-- Every exception is fatal (R98). Each of the four conditions under which R99 to R102 raise one makes the step set
`status` to FAULTED and record that reason in `fault`. And whenever a step leaves FAULTED, a fault is recorded, no step
follows, and the run ends as a fault, never as a clean halt. -/
def Obligations.EveryFaultEndsTheRun : Prop :=
  ∀ s : State, s.status = .running →
    (∀ reason : FaultReason,
      ((reason = .addressOutOfRange ∧ s.cfg.memSize ≤ s.pc.toNat + 1) ∨
       (∃ w, fetch s = some w ∧
         ((reason = .unimplementedOpcode ∧ ∀ row ∈ opcodeTable, row.matches w = false) ∨
          (reason = .stackOverflow ∧ callRow.matches w = true ∧ s.cfg.stackDepth ≤ s.sp) ∨
          (reason = .stackUnderflow ∧ w = 0x00EE#16 ∧ s.sp = 0)))) →
      ∃ t r, step s = .next t ∧ t.status = .faulted ∧ t.fault = some r ∧ r.reason = reason) ∧
    (∀ t, step s = .next t → t.status = .faulted →
      (∃ r, t.fault = some r) ∧ (∀ u, step t ≠ .next u) ∧ (∀ n, runFor (n + 1) s = .faulted t))

/-- Fault entry saves nothing and redirects nothing (R106): a faulted state differs from the one before the step in
`status`, `fault` and the pc's advance alone. (That the pc may be left advanced is also the spec's decision D10.) -/
def Obligations.FaultEntrySavesAndRedirectsNothing : Prop :=
  ∀ s t : State, s.status = .running → step s = .next t → t.status = .faulted →
    t = { s with pc := t.pc, status := .faulted, fault := t.fault } ∧ (t.pc = s.pc ∨ t.pc = s.pc + 2#16)

/-- Which fault a step takes, and its record, row by row of R103's table, with the codes; at most one arises.
(Derived: R99 to R104, whose codes, records and faulted pc are the spec's decisions D8, D9 and D10.) -/
def Obligations.FaultsOfAStepAndTheirRecords : Prop :=
  ∀ s t : State, s.status = .running → step s = .next t →
    (t.status = .faulted → ∃ r, t.fault = some r ∧ r.addr = s.pc ∧
      ((r.reason.code = 1 ∧ r.raw = none ∧ t.pc = s.pc ∧ s.cfg.memSize ≤ s.pc.toNat + 1) ∨
       (∃ w, fetch s = some w ∧ r.raw = some w ∧ t.pc = s.pc + 2#16 ∧
         ((r.reason.code = 2 ∧ ∀ row ∈ opcodeTable, row.matches w = false) ∨
          (r.reason.code = 3 ∧ callRow.matches w = true ∧ s.cfg.stackDepth ≤ s.sp) ∨
          (r.reason.code = 4 ∧ w = 0x00EE#16 ∧ s.sp = 0))))) ∧
    (s.cfg.memSize ≤ s.pc.toNat + 1 → t.status = .faulted) ∧
    (∀ w, fetch s = some w → (∀ row ∈ opcodeTable, row.matches w = false) → t.status = .faulted) ∧
    (∀ w, fetch s = some w → callRow.matches w = true → s.cfg.stackDepth ≤ s.sp → t.status = .faulted) ∧
    (fetch s = some 0x00EE#16 → s.sp = 0 → t.status = .faulted)

/-- Both ends keep all state indefinitely (R130): no execution, however long, changes a halted or a faulted machine
or what the host reads of it. -/
def Obligations.StateSurvivesBothEnds : Prop :=
  ∀ (s t : State) (n : Nat),
    (s.status = .halted → runFor n s = .halted s) ∧
    (s.status = .faulted → runFor n s = .faulted s) ∧
    (s.status ≠ .running → StepsTo n s t → t = s ∧ observe t = observe s)

/-- MEM_SIZE and STACK_DEPTH are fixed for the life of a machine (R10): no number of steps changes them, and the
register count is 16 in every state. -/
def Obligations.ConfigurationIsFixedForLife : Prop :=
  ∀ (n : Nat) (s t : State), StepsTo n s t →
    t.cfg.memSize = s.cfg.memSize ∧ t.cfg.stackDepth = s.cfg.stackDepth ∧ t.regs.toList.length = 16

/-- Memory is constant during a run: every byte reads as before after any number of steps, and a fetch at the same
pc reads the same word. (Derived: R52, R55 and R58, inferences the spec marks, and R56, its decision D14.) -/
def Obligations.MemoryIsConstantDuringARun : Prop :=
  ∀ (n : Nat) (s t : State), StepsTo n s t →
    t.mem = s.mem ∧ (∀ a, t.mem.read a = s.mem.read a) ∧ (t.pc = s.pc → fetch t = fetch s)

/-- Only CALL and RET move the stack pointer, by one, and only CALL writes an entry, at `stack[sp]`; RET clears
nothing. (Derived: R30, R31 and R32, the spec's decisions D5, D6 and D15.) -/
def Obligations.CallStackMovesOnlyByCallAndRet : Prop :=
  ∀ s t : State, step s = .next t →
    (∃ w a, fetch s = some w ∧ decode w = .ok (.call a) ∧
      t.sp = s.sp + 1 ∧ t.stack = s.stack.set s.sp (s.pc + 2#16)) ∨
    (∃ w, fetch s = some w ∧ decode w = .ok .ret ∧ t.sp + 1 = s.sp ∧ t.stack = s.stack) ∨
    (t.sp = s.sp ∧ t.stack = s.stack)

/-! ### The invariant -/

/-- The invariant holds of the machine right after construction. (Derived: R117 to R119; the reference
configuration is the model's choice, notes/assumptions/1.md.) -/
def Obligations.InvariantHoldsAtReset : Prop := State.reset.Inv

/-- The invariant holds of every launch state, in every admitted configuration. (Derived: R30 and R120, with the
spec's decisions D2 and D3.) -/
def Obligations.InvariantHoldsAtLaunch : Prop :=
  ∀ (c : Config) (l : Launch) (s : State), launch c l = .ok s → s.Inv

/-- Every step keeps the invariant: `sp` within 0 to STACK_DEPTH, STACK_DEPTH entries, every one at most MEM_SIZE,
memory canonical and in range, and `fault` none or a true record of the fault with the pc, `sp` and word of R103's
table. (Derived: R26, R30, R34, R86 and R103, with the spec's decisions D5, D6, D9 and D10.) -/
def Obligations.EveryStepKeepsTheInvariant : Prop :=
  ∀ s t : State, s.Inv → step s = .next t → t.Inv

/-! ### Construction, launch and observation -/

/-- What construction leaves, in every configuration (R117): every memory byte, every register and every call-stack
entry zero, and `sp` zero. -/
def Obligations.ConstructionZeroesEverything : Prop :=
  ∀ c : Config,
    (∀ a, a < c.memSize → (State.construct c).mem.read a = 0x00#8) ∧
    (∀ r : RegIdx, (State.construct c).getReg r = 0x00#8) ∧
    (State.construct c).stack.length = c.stackDepth ∧
    (∀ k, k < c.stackDepth → (State.construct c).stack[k]? = some 0x0000#16) ∧
    (State.construct c).sp = 0

/-- The rest of construction: pc 0x0000, `fault` none, `status` RUNNING, in every configuration, the reset state
among them. (Derived: R118, the spec's decision D7; the reset state's configuration is the model's choice,
notes/assumptions/1.md.) -/
def Obligations.ConstructionControlState : Prop :=
  (∀ c : Config, (State.construct c).pc = 0x0000#16 ∧ (State.construct c).fault = none ∧
    (State.construct c).status = .running) ∧
  State.reset = State.construct { memSize := 4096, stackDepth := 16 }

/-- The launch state: `mem` the construction zeros, overwritten by whatever bytes the loader wrote, a later write over
an earlier one; the snapshot in the registers; pc = PC0; `sp` 0 and every entry 0; RUNNING; no fault. (Derived: R120;
that the loader's work is a list of writes applied in order, so that the last one that covers a byte gives its value, is
the model's choice, notes/assumptions/3.md.) -/
def Obligations.LaunchStateIsTheLoadersImage : Prop :=
  ∀ (c : Config) (l : Launch) (s : State), launch c l = .ok s →
    s.pc = l.pc0 ∧ s.regs = l.regs ∧ s.sp = 0 ∧ s.stack.length = c.stackDepth ∧
    (∀ k, k < c.stackDepth → s.stack[k]? = some 0x0000#16) ∧ s.status = .running ∧ s.fault = none ∧
    s.cfg = c ∧
    (∀ a, (∀ chunk ∈ l.image, ¬ (chunk.1 ≤ a ∧ a < chunk.1 + chunk.2.length)) → s.mem.read a = 0x00#8) ∧
    (∀ before a (bs : List Byte) after k b, l.image = before ++ (a, bs) :: after → bs[k]? = some b →
      (∀ chunk ∈ after, ¬ (chunk.1 ≤ a + k ∧ a + k < chunk.1 + chunk.2.length)) → s.mem.read (a + k) = b)

/-- What a launch refuses: a configuration outside 2 ≤ MEM_SIZE ≤ 4096 and STACK_DEPTH ≥ 1, and an image that leaves
`mem`; nothing else. (Derived: R7, R8 and R15, with the spec's decisions D2 and D3; the refusals' names are the
model's, notes/assumptions/3.md.) -/
def Obligations.LaunchRefusesBadConfigurationsAndImages : Prop :=
  ∀ (c : Config) (l : Launch),
    (launch c l = .error .configurationNotAdmitted ↔
      c.memSize < 2 ∨ 4096 < c.memSize ∨ c.stackDepth = 0) ∧
    (launch c l = .error .imageOutOfRange ↔
      (2 ≤ c.memSize ∧ c.memSize ≤ 4096 ∧ 1 ≤ c.stackDepth) ∧
        ∃ chunk ∈ l.image, c.memSize < chunk.1 + chunk.2.length) ∧
    ((∃ s, launch c l = .ok s) ↔
      (2 ≤ c.memSize ∧ c.memSize ≤ 4096 ∧ 1 ≤ c.stackDepth) ∧
        ∀ chunk ∈ l.image, chunk.1 + chunk.2.length ≤ c.memSize)

/-- A word the loader places big-endian at the pc is the word the next fetch reads, at an odd address as at an even
one, and no other byte changes. (Derived: R48, an inference the spec marks, and R49, its decision D13.) -/
def Obligations.PlacedWordIsFetched : Prop :=
  ∀ (s : State) (w : Word), Memory.wf s.mem = true → s.pc.toNat + 1 < s.cfg.memSize →
    fetch { s with mem := s.mem.writeBytes s.pc.toNat [w.extractLsb' 8 8, w.extractLsb' 0 8] } = some w ∧
    (∀ a, a ≠ s.pc.toNat → a ≠ s.pc.toNat + 1 →
      (s.mem.writeBytes s.pc.toNat [w.extractLsb' 8 8, w.extractLsb' 0 8]).read a = s.mem.read a)

/-- The host reads the final state only after the run has stopped, and then all of it; the result register is
register 0. (Derived: R43 and R44, the spec's decision D20, and R129.) -/
def Obligations.HostReadsOnlyAStoppedMachine : Prop :=
  ∀ s : State,
    (observe s = none ↔ s.status = .running) ∧
    (∀ o, observe s = some o → o.status = s.status ∧ o.fault = s.fault ∧ o.regs = s.regs ∧ o.pc = s.pc ∧
      o.sp = s.sp ∧ o.stack = s.stack ∧ o.mem = s.mem ∧ o.result = s.getReg 0)

/-- The numbers of the run states and the fault reasons. (Derived: R33 and R34, the spec's decision D8.) -/
def Obligations.RunStateAndFaultNumbers : Prop :=
  Status.running.code = 0#2 ∧ Status.halted.code = 1#2 ∧ Status.faulted.code = 2#2 ∧
  (∀ st : Status, st.code ≠ 3#2) ∧
  FaultReason.addressOutOfRange.code = 1 ∧ FaultReason.unimplementedOpcode.code = 2 ∧
  FaultReason.stackOverflow.code = 3 ∧ FaultReason.stackUnderflow.code = 4

/-! ### Runs -/

/-- What an execution under a step ceiling reports is real: a halted or faulted result is the end of a run of that
many steps or fewer, and running out of fuel is a running machine after exactly the ceiling's steps, neither HALTED
nor a fault. (Derived: R85 and R128 with R110, the spec's decision D19.) -/
def Obligations.ExecutorReportsTheRunsOwnEnd : Prop :=
  ∀ (n : Nat) (s t : State),
    (runFor n s = .halted t ↔ t.status = .halted ∧ ∃ k, k ≤ n ∧ StepsTo k s t) ∧
    (runFor n s = .faulted t ↔ t.status = .faulted ∧ ∃ k, k ≤ n ∧ StepsTo k s t) ∧
    (runFor n s = .outOfFuel t ↔ t.status = .running ∧ StepsTo n s t)

/-- A CALL followed immediately by a RET: the two steps leave the pc just after the CALL, `sp` as before and every
register unchanged. (Derived: R94, an inference the spec marks.) -/
def Obligations.CallThenRetBalances : Prop :=
  ∀ (s t : State) (w : Word) (a : BitVec 12), s.Wf → s.fetches w → decode w = .ok (.call a) →
    s.sp < s.cfg.stackDepth → step s = .next t → fetch t = some 0x00EE#16 →
    ∃ u, step t = .next u ∧ u.pc = s.pc + 2#16 ∧ u.sp = s.sp ∧ u.regs = s.regs ∧ u.mem = s.mem ∧
      u.status = .running

/-- The call/return balance law: a CALL that succeeds, then any code that stays inside its frame, then a RET at the
frame's own depth, lead back to the address after the CALL with `sp` as before. (Derived: R94, an inference the spec
marks.) -/
def Obligations.BalancedCodeReturnsAfterTheCall : Prop :=
  ∀ (s t u : State) (w : Word) (a : BitVec 12) (n : Nat), s.Wf → s.fetches w → decode w = .ok (.call a) →
    s.sp < s.cfg.stackDepth → step s = .next t → StepsInFrame (s.sp + 1) n t u → u.sp = s.sp + 1 →
    u.fetches 0x00EE#16 →
    ∃ v, step u = .next v ∧ v.pc = s.pc + 2#16 ∧ v.sp = s.sp ∧ v.status = .running

/-- Every run ends: from any launch state the core reaches `status ≠ RUNNING` within T(0) steps, and an executor
with that much fuel, or more, reports HALTED or FAULTED. (Derived: R127, an inference the spec marks.) -/
def Obligations.EveryRunEnds : Prop :=
  ∀ (c : Config) (l : Launch) (s : State), launch c l = .ok s →
    (∃ n t, n ≤ runBound c ∧ StepsTo n s t ∧ t.status ≠ .running) ∧
    (∀ n, runBound c ≤ n → ∃ t, runFor n s = .halted t ∨ runFor n s = .faulted t)
end

