-- ==== Sys2Proof/Laws/Decode.lean ====
section
/-! SUPPORT. Bit fields as arithmetic, bytes and words, and the rows the encoder's words stand in. -/

namespace Sys2Proof

@[simp] theorem regOfField_fieldOfReg (r : RegIdx) : regOfField (fieldOfReg r) = r := rfl

@[simp] theorem fieldOfReg_regOfField (f : BitVec 4) : fieldOfReg (regOfField f) = f := rfl

theorem fieldsOf_g_toNat (w : Word) : (fieldsOf w).g.toNat = w.toNat / 4096 := by
  have := w.isLt
  simp only [fieldsOf, BitVec.extractLsb'_toNat, Nat.shiftRight_eq_div_pow]
  omega

theorem fieldsOf_x_toNat (w : Word) : (fieldsOf w).x.toNat = w.toNat / 256 % 16 := by
  simp only [fieldsOf, BitVec.extractLsb'_toNat, Nat.shiftRight_eq_div_pow]

theorem fieldsOf_y_toNat (w : Word) : (fieldsOf w).y.toNat = w.toNat / 16 % 16 := by
  simp only [fieldsOf, BitVec.extractLsb'_toNat, Nat.shiftRight_eq_div_pow]

theorem fieldsOf_d_toNat (w : Word) : (fieldsOf w).d.toNat = w.toNat % 16 := by
  simp only [fieldsOf, BitVec.extractLsb'_toNat, Nat.shiftRight_eq_div_pow]
  simp

theorem fieldsOf_addr_toNat (w : Word) : (fieldsOf w).addr.toNat = w.toNat % 4096 := by
  simp only [fieldsOf, BitVec.extractLsb'_toNat, Nat.shiftRight_eq_div_pow]
  simp

theorem wordOfBytes_toNat (hi lo : Byte) : (wordOfBytes hi lo).toNat = 256 * hi.toNat + lo.toNat := by
  have := lo.isLt
  rw [wordOfBytes, BitVec.toNat_append, Nat.shiftLeft_eq, Nat.mul_comm]
  exact (Nat.two_pow_add_eq_or_of_lt this hi.toNat).symm

@[simp] theorem wordOfBytes_highByte_lowByte (w : Word) : wordOfBytes (highByte w) (lowByte w) = w := by
  apply BitVec.eq_of_toNat_eq
  have := w.isLt
  rw [wordOfBytes_toNat]
  simp only [highByte, lowByte, BitVec.extractLsb'_toNat, Nat.shiftRight_eq_div_pow]
  omega

@[simp] theorem highByte_wordOfBytes (hi lo : Byte) : highByte (wordOfBytes hi lo) = hi := by
  apply BitVec.eq_of_toNat_eq
  have := hi.isLt
  have := lo.isLt
  simp only [highByte, BitVec.extractLsb'_toNat, wordOfBytes_toNat, Nat.shiftRight_eq_div_pow]
  omega

@[simp] theorem lowByte_wordOfBytes (hi lo : Byte) : lowByte (wordOfBytes hi lo) = lo := by
  apply BitVec.eq_of_toNat_eq
  have := lo.isLt
  simp only [lowByte, BitVec.extractLsb'_toNat, wordOfBytes_toNat, Nat.shiftRight_eq_div_pow]
  omega

theorem encode_call_toNat (addr : BitVec 12) : (encode (.call addr)).toNat = 0x2000 + addr.toNat := by
  have := addr.isLt
  have key : (encode (.call addr)).toNat = (0x2#4 ++ addr).toNat := rfl
  rw [key, BitVec.toNat_append, Nat.shiftLeft_eq, Nat.mul_comm, ← Nat.two_pow_add_eq_or_of_lt this]
  rfl

theorem encode_add_toNat (x y : RegIdx) :
    (encode (.add x y)).toNat = 0x8004 + 256 * x.val + 16 * y.val := by
  revert x y
  decide

/-- A word is known by its five fields: the four nibbles. -/
theorem toNat_eq_fields (w : Word) :
    w.toNat = 4096 * (fieldsOf w).g.toNat + 256 * (fieldsOf w).x.toNat + 16 * (fieldsOf w).y.toNat
      + (fieldsOf w).d.toNat := by
  rw [fieldsOf_g_toNat, fieldsOf_x_toNat, fieldsOf_y_toNat, fieldsOf_d_toNat]
  omega

/-- What the decoder answers, arm by arm, as arithmetic on the word. -/
theorem decode_cases (w : Word) :
    (w.toNat = 0x0000 ∧ decode w = .ok .halt) ∨
    (w.toNat = 0x00EE ∧ decode w = .ok .ret) ∨
    (w.toNat / 4096 = 2 ∧ decode w = .ok (.call (fieldsOf w).addr)) ∨
    (w.toNat / 4096 = 8 ∧ w.toNat % 16 = 4 ∧
      decode w = .ok (.add (regOfField (fieldsOf w).x) (regOfField (fieldsOf w).y))) ∨
    (w.toNat ≠ 0x0000 ∧ w.toNat ≠ 0x00EE ∧ w.toNat / 4096 ≠ 2 ∧ ¬ (w.toNat / 4096 = 8 ∧ w.toNat % 16 = 4) ∧
      decode w = .error (.unimplementedOpcode w)) := by
  have hg := fieldsOf_g_toNat w
  have hx := fieldsOf_x_toNat w
  have hy := fieldsOf_y_toNat w
  have hd := fieldsOf_d_toNat w
  simp only [decode, BitVec.toNat_eq, BitVec.toNat_ofNat, Nat.reducePow, Nat.reduceMod]
  split
  · left; refine ⟨by omega, rfl⟩
  · split
    · right; left; refine ⟨by omega, rfl⟩
    · split
      · right; right; left; exact ⟨by omega, rfl⟩
      · split
        · right; right; right; left; exact ⟨by omega, by omega, rfl⟩
        · right; right; right; right; exact ⟨by omega, by omega, by omega, by omega, rfl⟩

/-! ### The opcode table's patterns as numbers -/

/-- The mask 0xF00F keeps the group and the sub-opcode. -/
theorem and_F00F_toNat (w : Word) : (w &&& 0xF00F#16).toNat = 4096 * (w.toNat / 4096) + w.toNat % 16 := by
  have hsplit : w &&& 0xF00F#16 = (w >>> 12) <<< 12 ||| (w &&& 0x000F#16) := by
    ext i hi
    interval_cases i <;> simp
  have hlow : (w &&& 0x000F#16).toNat = w.toNat % 16 := by
    rw [BitVec.toNat_and]
    exact Nat.and_two_pow_sub_one_eq_mod w.toNat 4
  have hhigh : ((w >>> 12) <<< 12).toNat = 2 ^ 12 * (w.toNat / 4096) := by
    have := w.isLt
    simp only [BitVec.toNat_shiftLeft, BitVec.toNat_ushiftRight, Nat.shiftRight_eq_div_pow, Nat.shiftLeft_eq]
    omega
  rw [hsplit, BitVec.toNat_or, hlow, hhigh, ← Nat.two_pow_add_eq_or_of_lt (by omega)]

/-- The mask 0xF000 keeps the group. -/
theorem and_F000_toNat (w : Word) : (w &&& 0xF000#16).toNat = 4096 * (w.toNat / 4096) := by
  have hsplit : w &&& 0xF000#16 = (w >>> 12) <<< 12 := by
    ext i hi
    interval_cases i <;> simp
  have := w.isLt
  simp only [hsplit, BitVec.toNat_shiftLeft, BitVec.toNat_ushiftRight, Nat.shiftRight_eq_div_pow,
    Nat.shiftLeft_eq]
  omega

/-- The mask 0xFFFF keeps the whole word. -/
theorem and_FFFF (w : Word) : w &&& 0xFFFF#16 = w := by
  ext i hi
  interval_cases i <;> simp

/-- HALT's pattern, as a number (R66). -/
theorem haltRow_matches_iff (w : Word) : haltRow.matches w = true ↔ w.toNat = 0x0000 := by
  simp [OpcodeRow.matches, haltRow, and_FFFF, BitVec.toNat_eq]

/-- RET's pattern, as a number (R67). -/
theorem retRow_matches_iff (w : Word) : retRow.matches w = true ↔ w.toNat = 0x00EE := by
  simp [OpcodeRow.matches, retRow, and_FFFF, BitVec.toNat_eq]

/-- CALL's pattern, as numbers (R68). -/
theorem callRow_matches_iff (w : Word) : callRow.matches w = true ↔ w.toNat / 4096 = 2 := by
  simp only [OpcodeRow.matches, callRow, beq_iff_eq, BitVec.toNat_eq, and_F000_toNat, BitVec.toNat_ofNat]
  omega

/-- ADD's pattern, as numbers (R69). -/
theorem addRow_matches_iff (w : Word) : addRow.matches w = true ↔ w.toNat / 4096 = 8 ∧ w.toNat % 16 = 4 := by
  simp only [OpcodeRow.matches, addRow, beq_iff_eq, BitVec.toNat_eq, and_F00F_toNat, BitVec.toNat_ofNat]
  omega

end Sys2Proof
end

