-- ==== Sys2Proof/Laws/State.lean ====
section
/-! SUPPORT. What each named update of the state does to each field, one lemma per field, true by unfolding once. -/

namespace Sys2Proof.Machine

/-! `setReg` -/

@[simp] theorem State.setReg_cfg (s : State) (i : RegIdx) (v : Byte) : (s.setReg i v).cfg = s.cfg := rfl
@[simp] theorem State.setReg_regs (s : State) (i : RegIdx) (v : Byte) : (s.setReg i v).regs = s.regs.set i.val v i.isLt := rfl
@[simp] theorem State.setReg_pc (s : State) (i : RegIdx) (v : Byte) : (s.setReg i v).pc = s.pc := rfl
@[simp] theorem State.setReg_sp (s : State) (i : RegIdx) (v : Byte) : (s.setReg i v).sp = s.sp := rfl
@[simp] theorem State.setReg_stack (s : State) (i : RegIdx) (v : Byte) : (s.setReg i v).stack = s.stack := rfl
@[simp] theorem State.setReg_mem (s : State) (i : RegIdx) (v : Byte) : (s.setReg i v).mem = s.mem := rfl
@[simp] theorem State.setReg_status (s : State) (i : RegIdx) (v : Byte) : (s.setReg i v).status = s.status := rfl
@[simp] theorem State.setReg_fault (s : State) (i : RegIdx) (v : Byte) : (s.setReg i v).fault = s.fault := rfl

/-! `setCarry` -/

@[simp] theorem State.setCarry_cfg (s : State) (t : Nat) : (s.setCarry t).cfg = s.cfg := rfl
@[simp] theorem State.setCarry_regs (s : State) (t : Nat) : (s.setCarry t).regs = s.regs.set carryReg.val (carryOf t) carryReg.isLt := rfl
@[simp] theorem State.setCarry_pc (s : State) (t : Nat) : (s.setCarry t).pc = s.pc := rfl
@[simp] theorem State.setCarry_sp (s : State) (t : Nat) : (s.setCarry t).sp = s.sp := rfl
@[simp] theorem State.setCarry_stack (s : State) (t : Nat) : (s.setCarry t).stack = s.stack := rfl
@[simp] theorem State.setCarry_mem (s : State) (t : Nat) : (s.setCarry t).mem = s.mem := rfl
@[simp] theorem State.setCarry_status (s : State) (t : Nat) : (s.setCarry t).status = s.status := rfl
@[simp] theorem State.setCarry_fault (s : State) (t : Nat) : (s.setCarry t).fault = s.fault := rfl

/-! `takeFault` -/

@[simp] theorem takeFault_cfg (r : FaultReason) (a : Word) (w : Option Word) (s : State) : (takeFault r a w s).cfg = s.cfg := rfl
@[simp] theorem takeFault_regs (r : FaultReason) (a : Word) (w : Option Word) (s : State) : (takeFault r a w s).regs = s.regs := rfl
@[simp] theorem takeFault_pc (r : FaultReason) (a : Word) (w : Option Word) (s : State) : (takeFault r a w s).pc = s.pc := rfl
@[simp] theorem takeFault_sp (r : FaultReason) (a : Word) (w : Option Word) (s : State) : (takeFault r a w s).sp = s.sp := rfl
@[simp] theorem takeFault_stack (r : FaultReason) (a : Word) (w : Option Word) (s : State) : (takeFault r a w s).stack = s.stack := rfl
@[simp] theorem takeFault_mem (r : FaultReason) (a : Word) (w : Option Word) (s : State) : (takeFault r a w s).mem = s.mem := rfl
@[simp] theorem takeFault_status (r : FaultReason) (a : Word) (w : Option Word) (s : State) : (takeFault r a w s).status = .faulted := rfl
@[simp] theorem takeFault_fault (r : FaultReason) (a : Word) (w : Option Word) (s : State) : (takeFault r a w s).fault = some { reason := r, addr := a, raw := w } := rfl

/-! `takeDispatchFault` -/

@[simp] theorem takeDispatchFault_cfg (r : FaultReason) (w : Word) (s : State) : (takeDispatchFault r w s).cfg = s.cfg := rfl
@[simp] theorem takeDispatchFault_regs (r : FaultReason) (w : Word) (s : State) : (takeDispatchFault r w s).regs = s.regs := rfl
@[simp] theorem takeDispatchFault_pc (r : FaultReason) (w : Word) (s : State) : (takeDispatchFault r w s).pc = s.pc := rfl
@[simp] theorem takeDispatchFault_sp (r : FaultReason) (w : Word) (s : State) : (takeDispatchFault r w s).sp = s.sp := rfl
@[simp] theorem takeDispatchFault_stack (r : FaultReason) (w : Word) (s : State) : (takeDispatchFault r w s).stack = s.stack := rfl
@[simp] theorem takeDispatchFault_mem (r : FaultReason) (w : Word) (s : State) : (takeDispatchFault r w s).mem = s.mem := rfl
@[simp] theorem takeDispatchFault_status (r : FaultReason) (w : Word) (s : State) : (takeDispatchFault r w s).status = .faulted := rfl
@[simp] theorem takeDispatchFault_fault (r : FaultReason) (w : Word) (s : State) : (takeDispatchFault r w s).fault = some { reason := r, addr := s.fetchPc, raw := some w } := rfl

/-! `takeFetchFault` -/

@[simp] theorem takeFetchFault_cfg (s : State) : (takeFetchFault s).cfg = s.cfg := rfl
@[simp] theorem takeFetchFault_regs (s : State) : (takeFetchFault s).regs = s.regs := rfl
@[simp] theorem takeFetchFault_pc (s : State) : (takeFetchFault s).pc = s.pc := rfl
@[simp] theorem takeFetchFault_sp (s : State) : (takeFetchFault s).sp = s.sp := rfl
@[simp] theorem takeFetchFault_stack (s : State) : (takeFetchFault s).stack = s.stack := rfl
@[simp] theorem takeFetchFault_mem (s : State) : (takeFetchFault s).mem = s.mem := rfl
@[simp] theorem takeFetchFault_status (s : State) : (takeFetchFault s).status = .faulted := rfl
@[simp] theorem takeFetchFault_fault (s : State) : (takeFetchFault s).fault = some { reason := .addressOutOfRange, addr := s.pc, raw := none } := rfl

/-! `advance` -/

@[simp] theorem advance_cfg (s : State) : (advance s).cfg = s.cfg := rfl
@[simp] theorem advance_regs (s : State) : (advance s).regs = s.regs := rfl
@[simp] theorem advance_pc (s : State) : (advance s).pc = s.pc + 2#16 := rfl
@[simp] theorem advance_sp (s : State) : (advance s).sp = s.sp := rfl
@[simp] theorem advance_stack (s : State) : (advance s).stack = s.stack := rfl
@[simp] theorem advance_mem (s : State) : (advance s).mem = s.mem := rfl
@[simp] theorem advance_status (s : State) : (advance s).status = s.status := rfl
@[simp] theorem advance_fault (s : State) : (advance s).fault = s.fault := rfl

/-! `pushReturn` -/

@[simp] theorem pushReturn_cfg (s : State) : (pushReturn s).cfg = s.cfg := rfl
@[simp] theorem pushReturn_regs (s : State) : (pushReturn s).regs = s.regs := rfl
@[simp] theorem pushReturn_pc (s : State) : (pushReturn s).pc = s.pc := rfl
@[simp] theorem pushReturn_sp (s : State) : (pushReturn s).sp = s.sp + 1 := rfl
@[simp] theorem pushReturn_stack (s : State) : (pushReturn s).stack = s.stack.set s.sp s.pc := rfl
@[simp] theorem pushReturn_mem (s : State) : (pushReturn s).mem = s.mem := rfl
@[simp] theorem pushReturn_status (s : State) : (pushReturn s).status = s.status := rfl
@[simp] theorem pushReturn_fault (s : State) : (pushReturn s).fault = s.fault := rfl

/-! `popReturn` -/

@[simp] theorem popReturn_cfg (s : State) : (popReturn s).cfg = s.cfg := rfl
@[simp] theorem popReturn_regs (s : State) : (popReturn s).regs = s.regs := rfl
@[simp] theorem popReturn_pc (s : State) : (popReturn s).pc = s.stackAt (s.sp - 1) := rfl
@[simp] theorem popReturn_sp (s : State) : (popReturn s).sp = s.sp - 1 := rfl
@[simp] theorem popReturn_stack (s : State) : (popReturn s).stack = s.stack := rfl
@[simp] theorem popReturn_mem (s : State) : (popReturn s).mem = s.mem := rfl
@[simp] theorem popReturn_status (s : State) : (popReturn s).status = s.status := rfl
@[simp] theorem popReturn_fault (s : State) : (popReturn s).fault = s.fault := rfl

/-! `jump` -/

@[simp] theorem jump_cfg (w : Word) (s : State) : (jump w s).cfg = s.cfg := rfl
@[simp] theorem jump_regs (w : Word) (s : State) : (jump w s).regs = s.regs := rfl
@[simp] theorem jump_pc (w : Word) (s : State) : (jump w s).pc = w := rfl
@[simp] theorem jump_sp (w : Word) (s : State) : (jump w s).sp = s.sp := rfl
@[simp] theorem jump_stack (w : Word) (s : State) : (jump w s).stack = s.stack := rfl
@[simp] theorem jump_mem (w : Word) (s : State) : (jump w s).mem = s.mem := rfl
@[simp] theorem jump_status (w : Word) (s : State) : (jump w s).status = s.status := rfl
@[simp] theorem jump_fault (w : Word) (s : State) : (jump w s).fault = s.fault := rfl

/-! `placeAtPc` -/

@[simp] theorem placeAtPc_cfg (w : Word) (s : State) : (placeAtPc w s).cfg = s.cfg := rfl
@[simp] theorem placeAtPc_regs (w : Word) (s : State) : (placeAtPc w s).regs = s.regs := rfl
@[simp] theorem placeAtPc_pc (w : Word) (s : State) : (placeAtPc w s).pc = s.pc := rfl
@[simp] theorem placeAtPc_sp (w : Word) (s : State) : (placeAtPc w s).sp = s.sp := rfl
@[simp] theorem placeAtPc_stack (w : Word) (s : State) : (placeAtPc w s).stack = s.stack := rfl
@[simp] theorem placeAtPc_mem (w : Word) (s : State) : (placeAtPc w s).mem = s.mem.writeBytes s.pc.toNat (bytesOfWord w) := rfl
@[simp] theorem placeAtPc_status (w : Word) (s : State) : (placeAtPc w s).status = s.status := rfl
@[simp] theorem placeAtPc_fault (w : Word) (s : State) : (placeAtPc w s).fault = s.fault := rfl

end Sys2Proof.Machine
end

