-- ==== Sys2Proof/Laws/Memory.lean ====
section
/-! SUPPORT. The byte memory: reads after writes, and every write keeps the canonical form and the address range. -/

namespace Sys2Proof.Machine

theorem Memory.wf_cons {cell : Host.Cell} {m : Memory} :
    Memory.wf (cell :: m) = true ↔
      cell.2 ≠ Memory.unlisted ∧ (∀ c ∈ m, cell.1 < c.1) ∧ Memory.wf m = true := by
  simp [Memory.wf, and_assoc]

theorem Memory.within_iff {n : Nat} {m : Memory} :
    Memory.within n m = true ↔ ∀ c ∈ m, c.1 < n := by
  simp [Memory.within]

/-- An address below every listed one reads as unlisted. -/
theorem Memory.read_of_below {m : Memory} {a : Nat} (h : ∀ c ∈ m, a < c.1) : m.read a = Memory.unlisted := by
  induction m with
  | nil => rfl
  | cons cell rest ih =>
    have hc := h cell (by simp)
    rw [Memory.read, if_neg (by omega)]
    exact ih (fun c hm => h c (by simp [hm]))

theorem Memory.mem_listed {a : Nat} {v : Byte} {c : Host.Cell} (h : c ∈ Memory.listed a v) : c = (a, v) := by
  unfold Memory.listed at h
  split at h <;> simp_all

/-- What a write can list: its own cell, and cells listed before. -/
theorem Memory.mem_write {m : Memory} {a : Nat} {v : Byte} {c : Host.Cell} (h : c ∈ m.write a v) :
    c = (a, v) ∨ c ∈ m := by
  induction m with
  | nil => exact .inl (Memory.mem_listed h)
  | cons cell rest ih =>
    rw [Memory.write] at h
    split at h
    · rcases List.mem_append.mp h with h | h
      · exact .inl (Memory.mem_listed h)
      · exact .inr h
    · split at h
      · rcases List.mem_append.mp h with h | h
        · exact .inl (Memory.mem_listed h)
        · exact .inr (by simp [h])
      · rcases List.mem_cons.mp h with h | h
        · exact .inr (by simp [h])
        · rcases ih h with h | h
          · exact .inl h
          · exact .inr (by simp [h])

/-- A listed cell in front of a canonical tail is canonical. -/
theorem Memory.wf_listed_append {a : Nat} {v : Byte} {m : Memory} (hm : Memory.wf m = true)
    (h : ∀ c ∈ m, a < c.1) : Memory.wf (Memory.listed a v ++ m) = true := by
  unfold Memory.listed
  split
  · simpa using hm
  · exact Memory.wf_cons.mpr ⟨‹_›, h, hm⟩

theorem Memory.wf_write {m : Memory} (a : Nat) (v : Byte) (hm : Memory.wf m = true) :
    Memory.wf (m.write a v) = true := by
  induction m with
  | nil => simpa [Memory.write] using Memory.wf_listed_append (a := a) (v := v) (m := []) rfl (by simp)
  | cons cell rest ih =>
    obtain ⟨h0, h1, h2⟩ := Memory.wf_cons.mp hm
    rw [Memory.write]
    split
    · refine Memory.wf_listed_append hm (fun c hc => ?_)
      rcases List.mem_cons.mp hc with rfl | hc
      · assumption
      · exact Nat.lt_trans ‹_› (h1 c hc)
    · split
      · exact Memory.wf_listed_append h2 (fun c hc => by have := h1 c hc; omega)
      · refine Memory.wf_cons.mpr ⟨h0, fun c hc => ?_, ih h2⟩
        rcases Memory.mem_write hc with rfl | hc
        · show cell.1 < a
          omega
        · exact h1 c hc

theorem Memory.within_write {n : Nat} {m : Memory} {a : Nat} (v : Byte) (ha : a < n)
    (hm : Memory.within n m = true) : Memory.within n (m.write a v) = true := by
  rw [Memory.within_iff] at *
  intro c hc
  rcases Memory.mem_write hc with rfl | hc
  · exact ha
  · exact hm c hc

theorem Memory.read_listed_append (a : Nat) (v : Byte) (m : Memory) (b : Nat)
    (h : ∀ c ∈ m, a < c.1) :
    Memory.read (Memory.listed a v ++ m) b = if b = a then v else m.read b := by
  unfold Memory.listed
  split
  · split
    · subst_vars
      simpa using Memory.read_of_below h
    · rfl
  · simp only [List.singleton_append, Memory.read, eq_comm]

/-- A read after a write: the written byte at its address, the old byte anywhere else. -/
theorem Memory.read_write {m : Memory} (a : Nat) (v : Byte) (b : Nat) (hm : Memory.wf m = true) :
    (m.write a v).read b = if b = a then v else m.read b := by
  induction m with
  | nil => simpa [Memory.write] using Memory.read_listed_append a v [] b (by simp)
  | cons cell rest ih =>
    obtain ⟨-, h1, h2⟩ := Memory.wf_cons.mp hm
    rw [Memory.write]
    split
    · refine Memory.read_listed_append a v _ b (fun c hc => ?_)
      rcases List.mem_cons.mp hc with rfl | hc
      · assumption
      · exact Nat.lt_trans ‹_› (h1 c hc)
    · split
      · rw [Memory.read_listed_append a v rest b (fun c hc => by have := h1 c hc; omega), Memory.read]
        split
        · rfl
        · rw [if_neg (by omega)]
      · rw [Memory.read, Memory.read, ih h2]
        split
        · rw [if_neg (by omega)]
        · rfl

theorem Memory.wf_writeBytes {m : Memory} (a : Nat) (bs : List Byte) (hm : Memory.wf m = true) :
    Memory.wf (m.writeBytes a bs) = true := by
  induction bs generalizing m a with
  | nil => exact hm
  | cons b bs ih => exact ih (a + 1) (Memory.wf_write a b hm)

theorem Memory.within_writeBytes {n : Nat} {m : Memory} {a : Nat} (bs : List Byte) (ha : a + bs.length ≤ n)
    (hm : Memory.within n m = true) : Memory.within n (m.writeBytes a bs) = true := by
  induction bs generalizing m a with
  | nil => exact hm
  | cons b bs ih =>
    simp only [List.length_cons] at ha
    exact ih (by omega) (Memory.within_write b (by omega) hm)

/-- A read after a `MemWrite`: byte `x - a` of those written inside its range, the old byte outside. -/
theorem Memory.read_writeBytes {m : Memory} (a : Nat) (bs : List Byte) (x : Nat) (hm : Memory.wf m = true) :
    (m.writeBytes a bs).read x =
      if a ≤ x ∧ x < a + bs.length then bs.getD (x - a) Memory.unlisted else m.read x := by
  induction bs generalizing m a with
  | nil => simp [Memory.writeBytes]
  | cons b bs ih =>
    rw [Memory.writeBytes, ih (a + 1) (Memory.wf_write a b hm), Memory.read_write a b x hm]
    simp only [List.length_cons]
    rcases Nat.lt_trichotomy x a with h | rfl | h
    · rw [if_neg (by omega), if_neg (by omega), if_neg (by omega)]
    · rw [if_neg (by omega), if_pos rfl, if_pos (by omega)]
      simp
    · obtain ⟨k, rfl⟩ : ∃ k, x = a + 1 + k := ⟨x - a - 1, by omega⟩
      have e1 : a + 1 + k - (a + 1) = k := by omega
      have e2 : a + 1 + k - a = k + 1 := by omega
      rw [e1, e2, List.getD_cons_succ]
      by_cases hk : k < bs.length
      · rw [if_pos (by omega), if_pos (by omega)]
      · rw [if_neg (by omega), if_neg (by omega), if_neg (by omega)]

/-- The canonical form is canonical: two memories that read alike everywhere are equal. -/
theorem Memory.eq_of_read {m n : Memory} (hm : Memory.wf m = true) (hn : Memory.wf n = true)
    (h : ∀ a, m.read a = n.read a) : m = n := by
  induction m generalizing n with
  | nil =>
    cases n with
    | nil => rfl
    | cons c rest =>
      have := h c.1
      simp only [Memory.read, if_true] at this
      exact absurd this.symm (Memory.wf_cons.mp hn).1
  | cons c rest ih =>
    obtain ⟨c0, c1, c2⟩ := Memory.wf_cons.mp hm
    cases n with
    | nil =>
      have := h c.1
      simp only [Memory.read, if_true] at this
      exact absurd this c0
    | cons d rest' =>
      obtain ⟨d0, d1, d2⟩ := Memory.wf_cons.mp hn
      have key : c.1 = d.1 := by
        rcases Nat.lt_trichotomy c.1 d.1 with hlt | heq | hgt
        · have := h c.1
          rw [Memory.read_of_below (m := d :: rest') (a := c.1)] at this
          · simp only [Memory.read, if_true] at this
            exact absurd this c0
          · intro e he
            rcases List.mem_cons.mp he with rfl | he
            · exact hlt
            · exact Nat.lt_trans hlt (d1 e he)
        · exact heq
        · have := h d.1
          rw [Memory.read_of_below (m := c :: rest) (a := d.1)] at this
          · simp only [Memory.read, if_true] at this
            exact absurd this.symm d0
          · intro e he
            rcases List.mem_cons.mp he with rfl | he
            · exact hgt
            · exact Nat.lt_trans hgt (c1 e he)
      have hval : c.2 = d.2 := by
        have := h c.1
        simpa [Memory.read, key] using this
      have hrest : rest = rest' := ih c2 d2 (fun a => by
        by_cases ha : c.1 = a
        · subst ha
          rw [Memory.read_of_below c1, Memory.read_of_below (key ▸ d1)]
        · have := h a
          rwa [Memory.read, Memory.read, if_neg ha, if_neg (key ▸ ha)] at this)
      rw [hrest, show c = d from Prod.ext key hval]

/-- Placing a word keeps the canonical form, wherever the pc stands. -/
theorem placeAtPc_mem_wf (w : Word) {s : State} (h : Memory.wf s.mem = true) :
    Memory.wf (placeAtPc w s).mem = true :=
  Memory.wf_writeBytes _ _ h

/-- The loader's image is in canonical form. -/
theorem Memory.wf_foldl_writeBytes (image : List (Nat × List Byte)) {m : Memory} (hm : Memory.wf m = true) :
    Memory.wf (image.foldl (fun m chunk => m.writeBytes chunk.1 chunk.2) m) = true := by
  induction image generalizing m with
  | nil => exact hm
  | cons chunk rest ih => exact ih (Memory.wf_writeBytes chunk.1 chunk.2 hm)

end Sys2Proof.Machine
end

