-- ==== Sys2Proof/Laws/Registers.lean ====
section
/-! SUPPORT. Reads after writes of the register file: no register aliases another (R20). -/

namespace Sys2Proof.Machine

@[simp] theorem State.getReg_setReg (s : State) (i j : RegIdx) (v : Byte) :
    (s.setReg i v).getReg j = if i = j then v else s.getReg j := by
  simp [State.getReg, State.setReg, Vector.getElem_set, Fin.ext_iff]

@[simp] theorem State.getReg_setCarry (s : State) (t : Nat) (j : RegIdx) :
    (s.setCarry t).getReg j = if carryReg = j then carryOf t else s.getReg j :=
  State.getReg_setReg s carryReg j (carryOf t)

/-- The register read looks at the register file only. -/
theorem State.getReg_congr {s t : State} (h : s.regs = t.regs) (i : RegIdx) : s.getReg i = t.getReg i := by
  simp [State.getReg, h]

end Sys2Proof.Machine
end

