-- ==== Sys2Proof/Laws/Cycle.lean ====
section
/-! SUPPORT. What each shared operation and each meaning can do, said once: if it answers a next state, then one
of the listed cases holds. -/

namespace Sys2Proof.Machine

/-! ### Fetch and advance -/

theorem fetch_eq_none_iff {s : State} : fetch s = none ↔ s.cfg.memSize ≤ s.pc.toNat + 1 := by
  unfold fetch
  split <;> simp_all

/-- A fetch that succeeds was in bounds and read the word at the pc. -/
theorem fetch_eq_some_iff {s : State} {w : Word} :
    fetch s = some w ↔ s.pc.toNat + 1 < s.cfg.memSize ∧ w = s.mem.word s.pc.toNat := by
  unfold fetch
  split
  · simp; omega
  · simp [eq_comm]; omega

/-- After the advance, `fetch_pc` is the pc the step began with (R86). -/
@[simp] theorem fetchPc_advance (s : State) : (advance s).fetchPc = s.pc := by
  simp [State.fetchPc]

/-- Under an admitted configuration the advance never wraps, and its result is at most MEM_SIZE (R26). -/
theorem advance_pc_toNat {s : State} {w : Word} (hc : s.cfg.Ok) (hf : fetch s = some w) :
    (s.pc + 2#16).toNat = s.pc.toNat + 2 ∧ s.pc.toNat + 2 ≤ s.cfg.memSize := by
  have h := (fetch_eq_some_iff.mp hf).1
  have h1 := hc.2.1
  refine ⟨?_, by omega⟩
  rw [BitVec.toNat_add]
  show (s.pc.toNat + 2) % 65536 = _
  omega

/-! ### Meanings -/

/-- HALT writes `status` alone. -/
theorem execHalt_next {s t : State} (h : exec .halt s = .next t) : t = { s with status := .halted } := by
  cases h
  rfl

/-- ADD writes the wrapped sum and then the carry. -/
theorem execAdd_next {x y : RegIdx} {s t : State} (h : exec (.add x y) s = .next t) :
    t = (s.setReg x (wrappedSum (sumOf (s.getReg x) (s.getReg y)))).setCarry
      (sumOf (s.getReg x) (s.getReg y)) := by
  cases h
  rfl

/-- CALL faults on a full call stack, and else pushes and jumps. -/
theorem execCall_next {addr : BitVec 12} {s t : State} (h : exec (.call addr) s = .next t) :
    (s.cfg.stackDepth ≤ s.sp ∧ t = takeDispatchFault .stackOverflow (encode (.call addr)) s) ∨
    (s.sp < s.cfg.stackDepth ∧ t = jump (callTarget addr) (pushReturn s)) := by
  simp only [exec, execCall, State.stackFull] at h
  split at h
  · cases h; exact .inl ⟨‹_›, rfl⟩
  · cases h; exact .inr ⟨by omega, rfl⟩

/-- RET faults on an empty call stack, and else pops. -/
theorem execRet_next {s t : State} (h : exec .ret s = .next t) :
    (s.sp = 0 ∧ t = takeDispatchFault .stackUnderflow (encode .ret) s) ∨ (0 < s.sp ∧ t = popReturn s) := by
  simp only [exec, execRet, State.stackEmpty] at h
  split at h
  · cases h; exact .inl ⟨‹_›, rfl⟩
  · cases h; exact .inr ⟨by omega, rfl⟩

/-! ### The step -/

/-- Only a running machine steps. -/
theorem step_running {s t : State} (h : step s = .next t) : s.status = .running := by
  unfold step at h
  split at h
  · assumption
  · cases h
  · cases h

theorem step_eq_cycle {s : State} (h : s.status = .running) : step s = cycle s := by
  simp [step, h]

/-- A fetched word that decodes runs its instruction on the advanced state. -/
theorem cycle_of_decode {s : State} {w : Word} {i : Instr} (hf : fetch s = some w) (hd : decode w = .ok i) :
    cycle s = exec i (advance s) := by
  simp [cycle, hf, dispatchWord, hd]

/-- Everything a step can do: a fetch fault, an unimplemented word, or a decoded instruction. -/
theorem step_next {s t : State} (h : step s = .next t) :
    s.status = .running ∧
    ((fetch s = none ∧ t = takeFetchFault s) ∨
     (∃ w, fetch s = some w ∧ decode w = .error (.unimplementedOpcode w) ∧
        t = takeDispatchFault .unimplementedOpcode w (advance s)) ∨
     (∃ w i, fetch s = some w ∧ decode w = .ok i ∧ exec i (advance s) = .next t)) := by
  have hr := step_running h
  refine ⟨hr, ?_⟩
  rw [step_eq_cycle hr] at h
  unfold cycle at h
  split at h
  · cases h; exact .inl ⟨‹_›, rfl⟩
  · rename_i w hf
    unfold dispatchWord at h
    rcases decode_cases w with ⟨-, hd⟩ | ⟨-, hd⟩ | ⟨-, hd⟩ | ⟨-, -, hd⟩ | ⟨-, -, -, -, hd⟩ <;> rw [hd] at h
    · exact .inr (.inr ⟨w, _, hf, hd, h⟩)
    · exact .inr (.inr ⟨w, _, hf, hd, h⟩)
    · exact .inr (.inr ⟨w, _, hf, hd, h⟩)
    · exact .inr (.inr ⟨w, _, hf, hd, h⟩)
    · cases h; exact .inr (.inl ⟨w, hf, hd, rfl⟩)

/-- Everything a step can do, instruction by instruction. -/
theorem step_next_cases {s t : State} (h : step s = .next t) :
    s.status = .running ∧
    ((fetch s = none ∧ t = takeFetchFault s) ∨
     (∃ w, fetch s = some w ∧ decode w = .error (.unimplementedOpcode w) ∧
        t = takeDispatchFault .unimplementedOpcode w (advance s)) ∨
     (∃ w, fetch s = some w ∧ decode w = .ok .halt ∧ t = { advance s with status := .halted }) ∨
     (∃ w, fetch s = some w ∧ decode w = .ok .ret ∧
        ((s.sp = 0 ∧ t = takeDispatchFault .stackUnderflow (encode .ret) (advance s)) ∨
         (0 < s.sp ∧ t = popReturn (advance s)))) ∨
     (∃ w addr, fetch s = some w ∧ decode w = .ok (.call addr) ∧
        ((s.cfg.stackDepth ≤ s.sp ∧ t = takeDispatchFault .stackOverflow (encode (.call addr)) (advance s)) ∨
         (s.sp < s.cfg.stackDepth ∧ t = jump (callTarget addr) (pushReturn (advance s))))) ∨
     (∃ w x y, fetch s = some w ∧ decode w = .ok (.add x y) ∧
        t = ((advance s).setReg x (wrappedSum (sumOf (s.getReg x) (s.getReg y)))).setCarry
              (sumOf (s.getReg x) (s.getReg y)))) := by
  obtain ⟨hr, h⟩ := step_next h
  refine ⟨hr, ?_⟩
  rcases h with h | h | ⟨w, i, hf, hd, he⟩
  · exact .inl h
  · exact .inr (.inl h)
  · cases i with
    | halt => exact .inr (.inr (.inl ⟨w, hf, hd, execHalt_next he⟩))
    | ret => exact .inr (.inr (.inr (.inl ⟨w, hf, hd, execRet_next he⟩)))
    | call addr => exact .inr (.inr (.inr (.inr (.inl ⟨w, addr, hf, hd, execCall_next he⟩))))
    | add x y => exact .inr (.inr (.inr (.inr (.inr ⟨w, x, y, hf, hd, execAdd_next he⟩))))

end Sys2Proof.Machine
end

