-- ==== Sys2Proof/Laws/Interface.lean ====
section
/-! SUPPORT. Launch, runs and steps in a row, each said once. -/

namespace Sys2Proof.Machine

/-! ### Construction and launch -/

/-- Memory at reset is in canonical form. -/
theorem construct_mem_wf (c : Config) : Memory.wf (State.construct c).mem = true := rfl

/-- A launch that is not refused had an admitted configuration and an image inside `mem`, and its state is the
launch state of R120. -/
theorem launch_ok {c : Config} {l : Launch} {s : State} (h : launch c l = .ok s) :
    c.Ok ∧ imageInRange c l.image = true ∧
    s = { State.construct c with mem := loadImage l.image, regs := l.regs, pc := l.pc0 } := by
  unfold launch at h
  split at h
  · cases h
  · split at h
    · cases h
    · cases h
      rename_i hc hi
      exact ⟨not_not.mp hc, by simpa using hi, rfl⟩

theorem loadImage_wf (image : List (Nat × List Byte)) : Memory.wf (loadImage image) = true :=
  Memory.wf_foldl_writeBytes image rfl

theorem Memory.within_foldl_writeBytes {n : Nat} (image : List (Nat × List Byte)) {m : Memory}
    (hi : ∀ chunk ∈ image, chunk.1 + chunk.2.length ≤ n) (hm : Memory.within n m = true) :
    Memory.within n (image.foldl (fun m chunk => m.writeBytes chunk.1 chunk.2) m) = true := by
  induction image generalizing m with
  | nil => exact hm
  | cons chunk rest ih =>
    exact ih (fun c hc => hi c (by simp [hc])) (Memory.within_writeBytes _ (hi chunk (by simp)) hm)

theorem loadImage_within {c : Config} {image : List (Nat × List Byte)} (h : imageInRange c image = true) :
    Memory.within c.memSize (loadImage image) = true :=
  Memory.within_foldl_writeBytes image (by simpa [imageInRange] using h) rfl

/-! ### Steps in a row -/

/-- A property that holds at the start and that every step keeps holds after any number of steps. -/
theorem stepsTo_preserves {P : State → Prop} (hstep : ∀ s t, P s → step s = .next t → P t) :
    ∀ {n : Nat} {s t : State}, P s → StepsTo n s t → P t
  | 0, _, _, hs, h => h ▸ hs
  | _ + 1, s, _, hs, ⟨u, hu, ht⟩ => stepsTo_preserves hstep (hstep s u hs hu) ht

theorem stepsTo_trans {m n : Nat} {s t u : State} (h1 : StepsTo m s t) (h2 : StepsTo n t u) :
    StepsTo (m + n) s u := by
  induction m generalizing s with
  | zero =>
    cases h1
    simpa using h2
  | succ m ih =>
    obtain ⟨v, hv, h1⟩ := h1
    rw [Nat.succ_add]
    exact ⟨v, hv, ih h1⟩

/-- A running machine's executor takes the step and goes on with one less fuel. -/
theorem runFor_step {n : Nat} {s t : State} (h : step s = .next t) : runFor (n + 1) s = runFor n t := by
  rw [runFor, step_running h]
  simp [h]

end Sys2Proof.Machine
end

