-- ==== Sys2Proof/Laws/PerInstr.lean ====
section
/-! SUPPORT. Statements about every instruction, proved constructor by constructor. -/

namespace Sys2Proof.Laws.OpcodeRow

/-- The encoder's word stands in its own row of the opcode table, and that row is one of the table's. -/
def Statement (i : Instr) : Prop := (rowOf i).matches (encode i) = true ∧ rowOf i ∈ opcodeTable

theorem halt : Statement .halt := ⟨by decide, by simp [rowOf, opcodeTable]⟩

theorem ret : Statement .ret := ⟨by decide, by simp [rowOf, opcodeTable]⟩

theorem call (addr : BitVec 12) : Statement (.call addr) := by
  refine ⟨(callRow_matches_iff _).mpr ?_, by simp [rowOf, opcodeTable]⟩
  have := addr.isLt
  rw [encode_call_toNat]
  omega

theorem add (x y : RegIdx) : Statement (.add x y) := by
  refine ⟨(addRow_matches_iff _).mpr ?_, by simp [rowOf, opcodeTable]⟩
  have := x.isLt
  have := y.isLt
  rw [encode_add_toNat]
  omega

end Sys2Proof.Laws.OpcodeRow
end

