-- ==== Sys2Proof/Tests/Slice0.lean ====
section
/-! SUPPORT. Tests on fixed values. Every expected value is taken from the spec: its test vectors
(95_test_vectors.md, named by their ids) or a rule named beside the test; none comes from a run of the model.
Section 4 holds, for every statement with hypotheses, a witness that meets them. -/

namespace Sys2Proof.Tests

open Sys2Proof.Machine

/-! ### Helpers -/

/-- A reference-configuration machine with a few bytes of memory, a pc and registers given as (index, value). -/
def machine (mem : Memory) (pc : Word) (regs : List (RegIdx × Byte) := []) : State :=
  regs.foldl (fun s r => s.setReg r.1 r.2) { State.reset with mem := mem, pc := pc }

/-- The machine with entries of the call stack in use. -/
def withStack (sp : Nat) (entries : List (Nat × Word)) (s : State) : State :=
  { s with sp := sp, stack := entries.foldl (fun st e => st.set e.1 e.2) s.stack }

/-- The next state of a step, to look at its fields. -/
def after (s : State) : Option State :=
  match step s with
  | .next t => some t
  | .fault _ => none
  | .refused _ => none

/-! ### 1. Each well-formedness check refuses an ill-formed term -/

theorem test_asm_refuses_call_operand : (AsmLine.call 0x1000).wellFormed = false := by decide
theorem test_asm_refuses_first_register : (AsmLine.add 16 0).wellFormed = false := by decide
theorem test_asm_refuses_second_register : (AsmLine.add 0 16).wellFormed = false := by decide
theorem test_asm_refuses_word : (AsmLine.word 0x10000).wellFormed = false := by decide
theorem test_config_refuses_small_memory : ¬ Config.Ok { memSize := 1, stackDepth := 16 } := by decide
theorem test_config_refuses_large_memory : ¬ Config.Ok { memSize := 4097, stackDepth := 16 } := by decide
theorem test_config_refuses_no_stack : ¬ Config.Ok { memSize := 4096, stackDepth := 0 } := by decide
theorem test_image_refuses_a_byte_past_the_end :
    imageInRange Config.reference [(0xFFF, [0x80#8, 0x14#8])] = false := by decide
theorem test_memory_form_refuses_a_listed_zero : Memory.wf [(4, 0x00#8)] = false := by decide
theorem test_memory_form_refuses_falling_addresses : Memory.wf [(4, 0x80#8), (3, 0x14#8)] = false := by decide

/-! ### 2. Words written out bit by bit from the encodings of R66 to R69, and illegal words (section 2.1) -/

theorem test_decode_halt : decode 0b0000000000000000#16 = .ok .halt := by decide
theorem test_decode_ret : decode 0b0000000011101110#16 = .ok .ret := by decide
theorem test_decode_call : decode 0b0010101010111100#16 = .ok (.call 0xABC#12) := by decide
theorem test_decode_add : decode 0b1000101010110100#16 = .ok (.add 10 11) := by decide
theorem test_decode_illegal_words :
    decode 0x00E0#16 = .error (.unimplementedOpcode 0x00E0#16) ∧
    decode 0x00EF#16 = .error (.unimplementedOpcode 0x00EF#16) ∧
    decode 0x01EE#16 = .error (.unimplementedOpcode 0x01EE#16) ∧
    decode 0x10EE#16 = .error (.unimplementedOpcode 0x10EE#16) ∧
    decode 0x8005#16 = .error (.unimplementedOpcode 0x8005#16) ∧
    decode 0x9004#16 = .error (.unimplementedOpcode 0x9004#16) ∧
    decode 0xFFFF#16 = .error (.unimplementedOpcode 0xFFFF#16) := by decide
theorem test_encode_words :
    encode .halt = 0x0000#16 ∧ encode .ret = 0x00EE#16 ∧ encode (.call 0xABC#12) = 0x2ABC#16 ∧
    encode (.add 10 11) = 0x8AB4#16 := by decide
theorem test_decode_table_word :
    decodeTableWord 16 0x2ABC = some (.call 0xABC#12) ∧ decodeTableWord 16 0x8014 = some (.add 0 1) ∧
    decodeTableWord 16 0x00EF = none := by decide
theorem test_register_names :
    regOfName ['V', 'F'] = some 15 ∧ regOfName ['v', 'a'] = some 10 ∧ regOfName ['V', '9'] = some 9 ∧
    regOfName ['V', 'G'] = none := by decide
theorem test_assemble_text :
    assembleText ['C', 'A', 'L', 'L', ' ', '0', 'x', 'A', 'B', 'C'] = some 0x2ABC#16 ∧
    assembleText ['A', 'D', 'D', ' ', 'V', '0', ',', ' ', 'v', 'e'] = some 0x80E4#16 ∧
    assembleText ['.', 'w', 'o', 'r', 'd', ' ', '0', 'x', '6', '0', '0', '5'] = some 0x6005#16 ∧
    assembleText ['C', 'A', 'L', 'L', ' ', '0', 'x', '1', '0', '0', '0'] = none ∧
    assembleText ['A', 'D', 'D', ' ', 'V', '0', ',', ' ', 'V', 'G'] = none := by decide
/-- W3's subroutine, placed big-endian at 0x100. -/
theorem test_place_program :
    (assembleProgram [['A', 'D', 'D', ' ', 'V', '0', ',', ' ', 'V', '1'], ['R', 'E', 'T']]).map (placeWords 0x100) =
      some (0x100, [0x80#8, 0x14#8, 0x00#8, 0xEE#8]) := by decide

/-! ### 3. One step of each instruction and of the front end -/

/-- W4: 250 + 10 wraps to 4 with carry 1. -/
theorem test_add_wraps :
    (after (machine [(0, 0x80#8), (1, 0x14#8)] 0x000#16 [(0, 250#8), (1, 10#8)])).map
      (fun t => (t.getReg 0, t.getReg 15, t.pc)) = some (4#8, 1#8, 0x002#16) := by decide
/-- AD6: ADD VF, V1 with VF = 200, V1 = 100 leaves the carry, not the sum, in VF. -/
theorem test_add_into_the_carry_register :
    (after (machine [(0, 0x8F#8), (1, 0x14#8)] 0x000#16 [(15, 200#8), (1, 100#8)])).map
      (fun t => (t.getReg 15, t.getReg 1)) = some (1#8, 100#8) := by decide
/-- CA1. -/
theorem test_call_pushes_the_advanced_pc :
    (after (machine [(0x200, 0x2A#8), (0x201, 0xBC#8)] 0x200#16)).map
      (fun t => (t.stackAt 0, t.sp, t.pc)) = some (0x0202#16, 1, 0x0ABC#16) := by decide
/-- CA4. -/
theorem test_call_on_a_full_stack :
    (after (withStack 16 [] (machine [(0x010, 0x23#8)] 0x010#16))).map
      (fun t => (t.status, t.fault, t.pc, t.sp)) =
      some (.faulted, some { reason := .stackOverflow, addr := 0x010#16, raw := some 0x2300#16 }, 0x012#16, 16) := by
  decide
/-- RT3. -/
theorem test_ret_pops_the_top_entry :
    (after (withStack 3 [(1, 0x0050#16), (2, 0x0104#16)] (machine [(0x105, 0xEE#8)] 0x104#16))).map
      (fun t => (t.sp, t.pc, t.stackAt 2)) = some (2, 0x0104#16, 0x0104#16) := by decide
/-- RT2. -/
theorem test_ret_on_an_empty_stack :
    (after (machine [(0x301, 0xEE#8)] 0x300#16)).map (fun t => (t.status, t.fault, t.pc, t.sp)) =
      some (.faulted, some { reason := .stackUnderflow, addr := 0x300#16, raw := some 0x00EE#16 }, 0x302#16, 0) := by
  decide
/-- HA1. -/
theorem test_halt_leaves_the_pc_advanced :
    (after (machine [] 0x004#16)).map (fun t => (t.status, t.pc, t.fault)) = some (.halted, 0x006#16, none) := by
  decide
/-- HA2. -/
theorem test_halt_at_the_top_of_memory :
    (after (machine [] 0xFFE#16)).map (fun t => (t.status, t.pc)) = some (.halted, 0x1000#16) := by decide
/-- FE4: 0xFFFF + 1 is not reduced. -/
theorem test_fetch_at_the_last_pc_value :
    (after (machine [] 0xFFFF#16)).map (fun t => (t.status, t.fault, t.pc)) =
      some (.faulted, some { reason := .addressOutOfRange, addr := 0xFFFF#16, raw := none }, 0xFFFF#16) := by
  decide
/-- FE5: an odd pc fetches normally. -/
theorem test_fetch_at_an_odd_pc :
    (after (machine [(1, 0x80#8), (2, 0x14#8)] 0x001#16 [(0, 3#8), (1, 4#8)])).map
      (fun t => (t.getReg 0, t.pc)) = some (7#8, 0x003#16) := by decide
/-- Section 2.1, the row 0x8015. -/
theorem test_unimplemented_word :
    (after (machine [(0, 0x80#8), (1, 0x15#8)] 0x000#16)).map (fun t => (t.status, t.fault, t.pc)) =
      some (.faulted, some { reason := .unimplementedOpcode, addr := 0x000#16, raw := some 0x8015#16 }, 0x002#16) := by
  decide
/-- TS1, TS2: no step. -/
theorem test_no_step_after_the_end :
    after { State.reset with status := .halted } = none ∧ after { State.reset with status := .faulted } = none := by
  decide
/-- A word placed by the host is the first instruction after reset (0x2004: CALL 0x004). -/
theorem test_with_fetch_word :
    (after (State.reset.withFetchWord 16 0x2004)).map (fun t => (t.pc, t.sp, t.stackAt 0)) =
      some (0x004#16, 1, 0x0002#16) := by decide

/-! ### 4. Witnesses: for each statement with hypotheses, a state and operands that meet them together -/

/-- A reference-configuration state. -/
def stateAt (mem : Memory) (pc : Word) (sp : Nat := 0) : State := { State.reset with mem := mem, pc := pc, sp := sp }

theorem stateAt_wf {mem : Memory} {pc : Word} {sp : Nat} (h1 : Memory.wf mem = true)
    (h2 : Memory.within Config.reference.memSize mem = true) (h3 : sp ≤ Config.reference.stackDepth) :
    (stateAt mem pc sp).Wf where
  cfg_ok := show Config.reference.Ok from by decide
  sp_le := h3
  stack_len := List.length_replicate
  stack_le := fun v hv => by rw [List.eq_of_mem_replicate hv]; exact Nat.zero_le _
  mem_wf := h1
  mem_within := h2

/-- What a step answers, read off `after`. -/
theorem step_of_after {s t : State} (h : after s = some t) : step s = .next t := by
  unfold after at h
  split at h
  · cases h; assumption
  · cases h
  · cases h

/-- CALL 0x300 at 0x010; at the boundary 15 of `sp` it still succeeds, at 16 it overflows. -/
def callAt (sp : Nat) : State := stateAt [(0x010, 0x23#8)] 0x010#16 sp
/-- RET at 0x300. -/
def retAt (sp : Nat) : State := stateAt [(0x301, 0xEE#8)] 0x300#16 sp
/-- ADD V0, V1 at 0xFFE, the last address a fetch succeeds at. -/
def addAt : State := stateAt [(0xFFE, 0x80#8), (0xFFF, 0x14#8)] 0xFFE#16
/-- HALT at 0x004, in memory nothing has written. -/
def haltAt : State := stateAt [] 0x004#16
/-- The unimplemented word 0x8015 at 0x000. -/
def illegalAt : State := stateAt [(0, 0x80#8), (1, 0x15#8)] 0x000#16
/-- A fetch with one byte remaining. -/
def pastEnd : State := stateAt [] 0xFFF#16
/-- CALL 0x020 at 0x010, ADD V0, V1 at 0x020 and RET at 0x022. -/
def bodyAt : State :=
  stateAt [(0x010, 0x20#8), (0x011, 0x20#8), (0x020, 0x80#8), (0x021, 0x14#8), (0x023, 0xEE#8)] 0x010#16
/-- CALL 0x020 at 0x010 and RET at 0x020 (RT5). -/
def emptyBodyAt : State := stateAt [(0x010, 0x20#8), (0x011, 0x20#8), (0x021, 0xEE#8)] 0x010#16

theorem callAt_wf {sp : Nat} (h : sp ≤ 16) : (callAt sp).Wf := stateAt_wf (by decide) (by decide) h
theorem bodyAt_wf : bodyAt.Wf := stateAt_wf (by decide) (by decide) (by decide)
theorem emptyBodyAt_wf : emptyBodyAt.Wf := stateAt_wf (by decide) (by decide) (by decide)
theorem addAt_wf : addAt.Wf := stateAt_wf (by decide) (by decide) (by decide)

/-- A launch of the words of `haltAt`: nothing placed, PC0 = 0x004. -/
def haltLaunch : Launch := { image := [], regs := Vector.replicate 16 0x00#8, pc0 := 0x004#16 }
/-- A launch that writes two chunks, the second over part of the first. -/
def overlapLaunch : Launch :=
  { image := [(0x100, [0x80#8, 0x14#8]), (0x101, [0x24#8])], regs := Vector.replicate 16 0x07#8, pc0 := 0x100#16 }

-- DecodedWordIsTheEncoding: test_decode_call. TableRowsAreDisjointAndCoverTheInstructions:
theorem witness_row_matches : callRow ∈ opcodeTable ∧ callRow.matches 0x2ABC#16 = true := by decide
-- AssemblerWritesTheEncoding, each refusing clause at its boundary:
theorem witness_assembler_clauses : 0xFFF < 0x1000 ∧ (15 < 16 ∨ 15 < 0) ∧ (15 < 0 ∨ 15 < 16) := by decide
-- FetchPastTheEndFaults and the fetch-fault clauses of PcAtTheEndOfAStep, EveryFaultEndsTheRun and
-- FaultsOfAStepAndTheirRecords:
theorem witness_fetch_fault :
    pastEnd.status = .running ∧ pastEnd.pc.toNat + 1 ≥ pastEnd.cfg.memSize ∧ fetch pastEnd = none := by decide
-- FetchReadsABigEndianPair, StepRunsTheDecodedInstruction, PlacedWordIsFetched, at the last address that succeeds:
theorem witness_fetch_in_bounds :
    addAt.status = .running ∧ addAt.pc.toNat + 1 < addAt.cfg.memSize ∧ Memory.wf addAt.mem = true ∧
    decodeBytes (addAt.mem.read addAt.pc.toNat :: addAt.mem.read (addAt.pc.toNat + 1) :: []) = .ok (.add 0 1, []) := by
  decide
-- DispatchSelectsOneOfFiveOutcomes and PcAtTheEndOfAStep, one state for each of the five outcomes; HaltWordSteps,
-- AddWordSteps, StepIsTheListing, EveryRunningMachineSteps:
theorem witness_fetches_halt : haltAt.fetches 0x0000#16 := by decide
theorem witness_fetches_ret : (retAt 1).fetches 0x00EE#16 ∧ 0 < (retAt 1).sp ∧ (retAt 1).sp = 0 + 1 := by decide
theorem witness_fetches_call :
    (callAt 15).fetches 0x2300#16 ∧ 0x2300#16 &&& 0xF000#16 = 0x2000#16 ∧ decode 0x2300#16 = .ok (.call 0x300#12) ∧
    (callAt 15).sp < (callAt 15).cfg.stackDepth ∧ (callAt 16).fetches 0x2300#16 ∧
    (callAt 16).cfg.stackDepth ≤ (callAt 16).sp := by decide
theorem witness_fetches_add :
    addAt.fetches (BitVec.ofNat 16 (0x8004 + 256 * (0 : RegIdx).val + 16 * (1 : RegIdx).val)) ∧
    (0 : RegIdx) ≠ 15 := by decide
theorem witness_fetches_unimplemented :
    illegalAt.fetches 0x8015#16 ∧ (∀ row ∈ opcodeTable, row.matches 0x8015#16 = false) := by decide
-- EveryFaultEndsTheRun and FaultsOfAStepAndTheirRecords, the full-stack clause (the other three conditions have their
-- own witnesses, before this one and after it):
theorem witness_call_on_full_stack :
    (callAt 16).status = .running ∧ fetch (callAt 16) = some 0x2300#16 ∧ callRow.matches 0x2300#16 = true ∧
    (callAt 16).cfg.stackDepth ≤ (callAt 16).sp := by decide
-- RetOnAnEmptyStackUnderflows, RetWordSteps, EveryFaultEndsTheRun and FaultsOfAStepAndTheirRecords, the empty-stack
-- clause:
theorem witness_ret_empty : (retAt 0).fetches 0x00EE#16 ∧ (retAt 0).sp = 0 := by decide
-- CallCompletes, CallOnAFullStackOverflows, CallWordSteps:
theorem witness_call_wf : (callAt 15).Wf ∧ (callAt 16).Wf := ⟨callAt_wf (by decide), callAt_wf (by decide)⟩
-- AddIsExactUnsignedAddition, both halves and the case X = 15: any state with
theorem witness_add_registers : (0 : RegIdx) ≠ 15 ∧ (15 : RegIdx) = 15 := by decide
-- NoStepUnlessRunning, TerminalStatesStopByName, StateSurvivesBothEnds:
theorem witness_terminal :
    { State.reset with status := .halted }.status ≠ .running ∧
    { State.reset with status := .faulted }.status ≠ .running ∧
    StepsTo 0 { State.reset with status := .halted } { State.reset with status := .halted } :=
  ⟨by decide, by decide, rfl⟩
-- EveryFaultEndsTheRun, FaultEntrySavesAndRedirectsNothing, FaultsOfAStepAndTheirRecords:
theorem witness_fault_steps :
    ∀ s ∈ [pastEnd, illegalAt, callAt 16, retAt 0],
      s.status = .running ∧ (after s).map (fun t => t.status) = some .faulted := by decide
-- PcNeverWraps, CallStackMovesOnlyByCallAndRet, EveryStepKeepsTheInvariant, ConfigurationIsFixedForLife,
-- MemoryIsConstantDuringARun: a well-formed state that steps
theorem witness_step_from_invariant :
    bodyAt.Inv ∧ bodyAt.fetches 0x2020#16 ∧
    step bodyAt = .next { bodyAt with stack := bodyAt.stack.set 0 0x0012#16, sp := 1, pc := 0x0020#16 } :=
  ⟨⟨bodyAt_wf, trivial⟩, by decide, step_of_after (by decide)⟩
-- CallThenRetBalances:
theorem witness_call_then_ret :
    emptyBodyAt.Wf ∧ emptyBodyAt.fetches 0x2020#16 ∧ decode 0x2020#16 = .ok (.call 0x020#12) ∧
    emptyBodyAt.sp < emptyBodyAt.cfg.stackDepth ∧
    ∃ t, step emptyBodyAt = .next t ∧ fetch t = some 0x00EE#16 :=
  ⟨emptyBodyAt_wf, by decide, by decide, by decide,
   { emptyBodyAt with stack := emptyBodyAt.stack.set 0 0x0012#16, sp := 1, pc := 0x0020#16 },
   step_of_after (by decide), by decide⟩
-- BalancedCodeReturnsAfterTheCall, with one instruction in the frame:
theorem witness_balanced_code :
    bodyAt.Wf ∧ bodyAt.fetches 0x2020#16 ∧ decode 0x2020#16 = .ok (.call 0x020#12) ∧
    bodyAt.sp < bodyAt.cfg.stackDepth ∧
    ∃ t u, step bodyAt = .next t ∧ StepsInFrame (bodyAt.sp + 1) 1 t u ∧ u.sp = bodyAt.sp + 1 ∧
      u.fetches 0x00EE#16 :=
  ⟨bodyAt_wf, by decide, by decide, by decide,
   { bodyAt with stack := bodyAt.stack.set 0 0x0012#16, sp := 1, pc := 0x0020#16 },
   { bodyAt with stack := bodyAt.stack.set 0 0x0012#16, sp := 1, pc := 0x0022#16 },
   step_of_after (by decide), ⟨by decide, _, step_of_after (by decide), by decide, rfl⟩, by decide, by decide⟩
-- HostReadsOnlyAStoppedMachine, the clause about a stopped machine:
theorem witness_observed : (observe { haltAt with status := .halted }).isSome = true := by decide
-- InvariantHoldsAtLaunch, LaunchStateIsTheLoadersImage, EveryRunEnds:
theorem witness_launch :
    launch Config.reference haltLaunch = .ok (stateAt [] 0x004#16) ∧
    launch Config.reference overlapLaunch = .ok
      { State.reset with
        mem := [(0x100, 0x80#8), (0x101, 0x24#8)], regs := Vector.replicate 16 0x07#8, pc := 0x100#16 } := by decide
-- LaunchStateIsTheLoadersImage, its two clauses about bytes:
theorem witness_launch_bytes :
    (∀ chunk ∈ overlapLaunch.image, ¬ (chunk.1 ≤ 0x102 ∧ 0x102 < chunk.1 + chunk.2.length)) ∧
    overlapLaunch.image = [(0x100, [0x80#8, 0x14#8])] ++ (0x101, [0x24#8]) :: [] ∧ [0x24#8][0]? = some 0x24#8 := by
  decide

end Sys2Proof.Tests
end

section
/-! PROOF. The configuration is fixed for the life of a machine (00_scope.md R10). -/

namespace Sys2Proof.Machine

/-- No operation writes the configuration: each kind of next state keeps it by its own field law. -/
theorem step_cfg {s t : State} (h : step s = .next t) : t.cfg = s.cfg := by
  obtain ⟨-, hfetch | hunimpl | hhalt | hret | hcall | hadd⟩ := step_next_cases h
  · obtain ⟨-, rfl⟩ := hfetch
    simp
  · obtain ⟨w, -, -, rfl⟩ := hunimpl
    simp
  · obtain ⟨w, -, -, rfl⟩ := hhalt
    simp
  · obtain ⟨w, -, -, ⟨-, rfl⟩ | ⟨-, rfl⟩⟩ := hret <;> simp
  · obtain ⟨w, addr, -, -, ⟨-, rfl⟩ | ⟨-, rfl⟩⟩ := hcall <;> simp
  · obtain ⟨w, x, y, -, -, rfl⟩ := hadd
    simp

theorem stepsTo_cfg {n : Nat} {s t : State} (h : StepsTo n s t) : t.cfg = s.cfg :=
  stepsTo_preserves (P := fun u => u.cfg = s.cfg) (fun _ _ hu hstep => (step_cfg hstep).trans hu) rfl h

/-- Settles O36: no step writes the configuration, and the register file's type holds its size. -/
theorem configurationIsFixedForLife : Obligations.ConfigurationIsFixedForLife := by
  intro n s t h
  have hcfg := stepsTo_cfg h
  exact ⟨congrArg Config.memSize hcfg, congrArg Config.stackDepth hcfg, Vector.length_toList⟩

end Sys2Proof.Machine
end

section
/-! PROOF. What each meaning and each step answers, and the state they write: the pc at the end of a step
(10_state.md R25) and the carry register (R28, R29). -/

namespace Sys2Proof.Machine

/-! ### The meanings -/

/-- No meaning stops the machine: a full or an empty call stack is a next state too (R91, R93). -/
theorem exec_total (i : Instr) (s : State) : ∃ t, exec i s = .next t := by
  cases i with
  | halt => exact ⟨_, rfl⟩
  | ret => simp only [exec, execRet]; split <;> exact ⟨_, rfl⟩
  | call addr => simp only [exec, execCall]; split <;> exact ⟨_, rfl⟩
  | add x y => exact ⟨_, rfl⟩

/-- The register file is written by ADD alone (R82). -/
theorem exec_regs {i : Instr} {s t : State} (h : exec i s = .next t) (hadd : ∀ x y, i ≠ .add x y) :
    t.regs = s.regs := by
  cases i with
  | halt => rw [execHalt_next h]
  | ret => obtain ⟨-, rfl⟩ | ⟨-, rfl⟩ := execRet_next h <;> simp
  | call addr => obtain ⟨-, rfl⟩ | ⟨-, rfl⟩ := execCall_next h <;> simp
  | add x y => exact absurd rfl (hadd x y)

/-- The flag ADD leaves is the carry of its operands' true sum, also where an operand is the flag (R27, R29). -/
theorem execAdd_getReg_carryReg {x y : RegIdx} {s t : State} (h : exec (.add x y) s = .next t) :
    t.getReg carryReg = carryOf (sumOf (s.getReg x) (s.getReg y)) := by
  rw [execAdd_next h, State.getReg_setCarry, if_pos rfl]

/-- The pc is written by CALL and RET alone (R25, R82). -/
theorem exec_pc {i : Instr} {s t : State} (h : exec i s = .next t) (hcall : ∀ addr, i ≠ .call addr)
    (hret : i ≠ .ret) : t.pc = s.pc := by
  cases i with
  | halt => rw [execHalt_next h]
  | ret => exact absurd rfl hret
  | call addr => exact absurd rfl (hcall addr)
  | add x y => simp [execAdd_next h]

/-- CALL loads its target and pushes the pc it sees, or on a full call stack keeps that pc (R90, R91). -/
theorem execCall_pc {addr : BitVec 12} {s t : State} (h : exec (.call addr) s = .next t) :
    if s.sp < s.cfg.stackDepth then t.pc = addr.setWidth 16 ∧ t.stack = s.stack.set s.sp s.pc
    else t.pc = s.pc := by
  obtain ⟨hfull, rfl⟩ | ⟨hroom, rfl⟩ := execCall_next h
  · rw [if_neg (by omega)]
    simp
  · rw [if_pos hroom]
    simp [callTarget]

/-- RET loads the top entry, or on an empty call stack keeps the pc it sees (R92, R93). -/
theorem execRet_pc {s t : State} (h : exec .ret s = .next t) :
    if 0 < s.sp then t.pc = s.stackAt (s.sp - 1) else t.pc = s.pc := by
  obtain ⟨hempty, rfl⟩ | ⟨hused, rfl⟩ := execRet_next h
  · rw [if_neg (by omega)]
    simp
  · rw [if_pos hused]
    simp

/-- Settles O20: ADD leaves the carry in register 15, and every other meaning keeps the register file. -/
theorem onlyAddWritesTheCarryRegister : Obligations.OnlyAddWritesTheCarryRegister := by
  intro i s
  obtain ⟨t, ht⟩ := exec_total i s
  refine ⟨t, ht, ?_⟩
  cases i with
  | halt => exact State.getReg_congr (exec_regs ht (by simp)) 15
  | ret => exact State.getReg_congr (exec_regs ht (by simp)) 15
  | call addr => exact State.getReg_congr (exec_regs ht (by simp)) 15
  | add x y => exact execAdd_getReg_carryReg ht

/-! ### The step of a running machine, by what it fetches -/

theorem step_of_fetch_none {s : State} (hr : s.status = .running) (hf : fetch s = none) :
    step s = .next (takeFetchFault s) := by
  rw [step_eq_cycle hr]
  simp [cycle, hf]

theorem step_of_decode_ok {s : State} {w : Word} {i : Instr} (hr : s.status = .running)
    (hf : fetch s = some w) (hd : decode w = .ok i) : step s = exec i (advance s) :=
  (step_eq_cycle hr).trans (cycle_of_decode hf hd)

theorem step_of_decode_error {s : State} {w : Word} {e : DecodeError} (hr : s.status = .running)
    (hf : fetch s = some w) (hd : decode w = .error e) :
    step s = .next (takeDispatchFault .unimplementedOpcode w (advance s)) := by
  rw [step_eq_cycle hr]
  simp [cycle, hf, dispatchWord, hd]

/-- Settles O13: by what the step fetches and decodes; a meaning sees the advanced pc, and only CALL and RET
write it. -/
theorem pcAtTheEndOfAStep : Obligations.PcAtTheEndOfAStep := by
  intro s hr
  refine ⟨fun hf => ⟨_, step_of_fetch_none hr hf, takeFetchFault_pc s⟩, fun w hf => ?_⟩
  cases hd : decode w with
  | error e => exact ⟨_, step_of_decode_error hr hf hd, by simp⟩
  | ok i =>
    obtain ⟨t, ht⟩ := exec_total i (advance s)
    refine ⟨t, (step_of_decode_ok hr hf hd).trans ht, ?_⟩
    simp only [ne_eq, Except.ok.injEq]
    refine ⟨?_, ?_, exec_pc ht⟩
    · rintro addr rfl
      exact execCall_pc ht
    · rintro rfl
      exact execRet_pc ht

end Sys2Proof.Machine
end

section
/-! PROOF. The fetch (20_memory.md R47, R50; 40_cycle.md R77, R78): its bounds check on integers, and the two bytes
it reads. -/

namespace Sys2Proof.Machine

/-- The fetch unit's check is the whole condition of its success (R50). -/
theorem exists_fetch_eq_some_iff {s : State} : (∃ w, fetch s = some w) ↔ s.pc.toNat + 1 < s.cfg.memSize := by
  simp [fetch_eq_some_iff]

@[simp] theorem highByte_word (m : Memory) (a : Nat) : highByte (m.word a) = m.read a :=
  highByte_wordOfBytes _ _

@[simp] theorem lowByte_word (m : Memory) (a : Nat) : lowByte (m.word a) = m.read (a + 1) :=
  lowByte_wordOfBytes _ _

/-- Settles O10: in bounds the fetch answers the word at the pc, whose halves are the two bytes. -/
theorem fetchReadsABigEndianPair : Obligations.FetchReadsABigEndianPair := by
  intro s hin
  have hf : fetch s = some (s.mem.word s.pc.toNat) := fetch_eq_some_iff.mpr ⟨hin, rfl⟩
  exact ⟨_, hf, highByte_word _ _, lowByte_word _ _⟩

/-- Settles O9: the check decides the fetch, and the step of a failed fetch is the fetch unit's fault. -/
theorem fetchPastTheEndFaults : Obligations.FetchPastTheEndFaults := by
  intro s
  refine ⟨exists_fetch_eq_some_iff, fun hr hout => ?_⟩
  have hf : fetch s = none := fetch_eq_none_iff.mpr hout
  exact step_of_fetch_none hr hf

end Sys2Proof.Machine
end

section
/-! PROOF. The decoder against the encoder and the opcode table (30_encoding.md R60 to R69): a word decodes to an
instruction iff it is that instruction's encoding, that is, iff it has the pattern of the instruction's row and
the operands stand in its fields. -/

namespace Sys2Proof

/-! ### Fields -/

/-- ADDR overlaps X, Y and D (R61). -/
theorem fieldsOf_addr_eq_append (w : Word) :
    (fieldsOf w).addr = (fieldsOf w).x ++ (fieldsOf w).y ++ (fieldsOf w).d := by
  have hxy : w.extractLsb' 8 4 ++ w.extractLsb' 4 4 = w.extractLsb' 4 8 :=
    BitVec.extractLsb'_append_extractLsb'_eq_extractLsb' rfl
  have hxyd : w.extractLsb' 4 8 ++ w.extractLsb' 0 4 = w.extractLsb' 0 12 :=
    BitVec.extractLsb'_append_extractLsb'_eq_extractLsb' rfl
  simp only [fieldsOf, hxy, hxyd]

/-- Settles O6: each nibble by its own law, and ADDR by joining adjacent extractions. -/
theorem fieldsAreTheNibblesAndTheLowTwelveBits : Obligations.FieldsAreTheNibblesAndTheLowTwelveBits :=
  fun w => ⟨fieldsOf_g_toNat w, fieldsOf_x_toNat w, fieldsOf_y_toNat w, fieldsOf_d_toNat w,
    fieldsOf_addr_eq_append w⟩

/-! ### Decode and encode -/

/-- The decoder finds each instruction's word: its fields are the parts that the encoder joined. -/
theorem decode_encode (i : Instr) : decode (encode i) = .ok i := by
  cases i with
  | halt => rfl
  | ret => rfl
  | call addr =>
    have hg : (fieldsOf (encode (.call addr))).g = 0x2#4 := BitVec.extractLsb'_append_eq_left
    have haddr : (fieldsOf (encode (.call addr))).addr = addr := BitVec.extractLsb'_append_eq_right
    simp [decode, hg, haddr]
  | add x y => revert x y; decide

/-- No word but its encoding decodes to an instruction: the arm taken fixes the nibbles that the operands leave. -/
theorem encode_of_decode {w : Word} {i : Instr} (h : decode w = .ok i) : encode i = w := by
  apply BitVec.eq_of_toNat_eq
  obtain ⟨hw, hd⟩ | ⟨hw, hd⟩ | ⟨hg, hd⟩ | ⟨hg, hs, hd⟩ | ⟨-, -, -, -, hd⟩ := decode_cases w <;>
    cases hd.symm.trans h
  · exact hw.symm
  · exact hw.symm
  · rw [encode_call_toNat, fieldsOf_addr_toNat]
    omega
  · have hx : (regOfField (fieldsOf w).x).val = w.toNat / 256 % 16 := fieldsOf_x_toNat w
    have hy : (regOfField (fieldsOf w).y).val = w.toNat / 16 % 16 := fieldsOf_y_toNat w
    rw [encode_add_toNat, hx, hy]
    omega

/-- Decoding an instruction as an equation of numbers. -/
theorem decode_eq_ok_iff {w : Word} {i : Instr} : decode w = .ok i ↔ w.toNat = (encode i).toNat := by
  rw [← BitVec.toNat_eq]
  refine ⟨fun h => (encode_of_decode h).symm, ?_⟩
  rintro rfl
  exact decode_encode i

/-! ### Decode and the opcode table -/

theorem OpcodeRow.matches_iff {r : OpcodeRow} {w : Word} : r.matches w = true ↔ w &&& r.mask = r.bits :=
  beq_iff_eq

theorem decode_eq_halt_iff {w : Word} : decode w = .ok .halt ↔ haltRow.matches w = true :=
  decode_eq_ok_iff.trans (haltRow_matches_iff w).symm

theorem decode_eq_ret_iff {w : Word} : decode w = .ok .ret ↔ retRow.matches w = true :=
  decode_eq_ok_iff.trans (retRow_matches_iff w).symm

theorem decode_eq_call_iff {w : Word} {addr : BitVec 12} :
    decode w = .ok (.call addr) ↔ callRow.matches w = true ∧ addr.toNat = w.toNat % 4096 := by
  have := addr.isLt
  rw [decode_eq_ok_iff, encode_call_toNat, callRow_matches_iff]
  omega

theorem decode_eq_add_iff {w : Word} {x y : RegIdx} :
    decode w = .ok (.add x y) ↔
      addRow.matches w = true ∧ x.val = w.toNat / 256 % 16 ∧ y.val = w.toNat / 16 % 16 := by
  have := x.isLt
  have := y.isLt
  rw [decode_eq_ok_iff, encode_add_toNat, addRow_matches_iff]
  omega

/-- Settles O3: each instruction by its row of the opcode table, a row's pattern being its mask and match. -/
theorem decoderSelectsByMaskAndMatch : Obligations.DecoderSelectsByMaskAndMatch :=
  fun _ =>
    ⟨decode_eq_halt_iff.trans OpcodeRow.matches_iff,
     decode_eq_ret_iff.trans OpcodeRow.matches_iff,
     fun _ => decode_eq_call_iff.trans (and_congr_left' OpcodeRow.matches_iff),
     fun _ _ => decode_eq_add_iff.trans (and_congr_left' OpcodeRow.matches_iff)⟩

end Sys2Proof
end

section
/-! PROOF. The cycle (40_cycle.md): dispatch selects by the nibbles of the fetched word (R81), and no step exists
unless the machine is RUNNING (R76). -/

namespace Sys2Proof

/-! ### The decoder's arms, by the nibbles: each pattern excludes the arms before it -/

theorem decode_of_halt_nibbles {w : Word}
    (h : (fieldsOf w).g = 0x0#4 ∧ (fieldsOf w).x = 0x0#4 ∧ (fieldsOf w).y = 0x0#4 ∧ (fieldsOf w).d = 0x0#4) :
    decode w = .ok .halt :=
  if_pos h

theorem decode_of_ret_nibbles {w : Word}
    (h : (fieldsOf w).g = 0x0#4 ∧ (fieldsOf w).x = 0x0#4 ∧ (fieldsOf w).y = 0xE#4 ∧ (fieldsOf w).d = 0xE#4) :
    decode w = .ok .ret := by
  simp [decode, h]

theorem decode_of_call_nibble {w : Word} (h : (fieldsOf w).g = 0x2#4) :
    decode w = .ok (.call (fieldsOf w).addr) := by
  simp [decode, h]

theorem decode_of_add_nibbles {w : Word} (h : (fieldsOf w).g = 0x8#4 ∧ (fieldsOf w).d = 0x4#4) :
    decode w = .ok (.add (regOfField (fieldsOf w).x) (regOfField (fieldsOf w).y)) := by
  simp [decode, h]

theorem decode_of_no_pattern {w : Word}
    (hhalt : ¬((fieldsOf w).g = 0x0#4 ∧ (fieldsOf w).x = 0x0#4 ∧ (fieldsOf w).y = 0x0#4 ∧ (fieldsOf w).d = 0x0#4))
    (hret : ¬((fieldsOf w).g = 0x0#4 ∧ (fieldsOf w).x = 0x0#4 ∧ (fieldsOf w).y = 0xE#4 ∧ (fieldsOf w).d = 0xE#4))
    (hcall : (fieldsOf w).g ≠ 0x2#4) (hadd : ¬((fieldsOf w).g = 0x8#4 ∧ (fieldsOf w).d = 0x4#4)) :
    decode w = .error (.unimplementedOpcode w) := by
  simp only [decode, if_neg hhalt, if_neg hret, if_neg hcall, if_neg hadd]

end Sys2Proof

namespace Sys2Proof.Machine

/-- The dispatcher's fault after the advance names the address the step fetched from (R86, R103). -/
theorem takeDispatchFault_advance (r : FaultReason) (w : Word) (s : State) :
    takeDispatchFault r w (advance s) =
      { advance s with status := .faulted, fault := some { reason := r, addr := s.pc, raw := some w } } := by
  rw [takeDispatchFault, fetchPc_advance, takeFault]

/-- Settles O12: the nibbles fix the decoder's answer, and the step runs that answer on the advanced state. -/
theorem dispatchSelectsOneOfFiveOutcomes : Obligations.DispatchSelectsOneOfFiveOutcomes := by
  rintro s w ⟨hr, hf⟩
  refine ⟨fun h => ?halt, fun h => ?ret, fun h => ?call, fun h => ?add, fun hhalt hret hcall hadd => ?unlisted⟩
  case halt => exact step_of_decode_ok hr hf (decode_of_halt_nibbles h)
  case ret => exact step_of_decode_ok hr hf (decode_of_ret_nibbles h)
  case call => exact step_of_decode_ok hr hf (decode_of_call_nibble h)
  case add => exact step_of_decode_ok hr hf (decode_of_add_nibbles h)
  case unlisted =>
    have hstep := step_of_decode_error hr hf (decode_of_no_pattern hhalt hret hcall hadd)
    rwa [takeDispatchFault_advance] at hstep

/-! ### Terminal states -/

/-- HALTED and FAULTED are terminal (R76). -/
theorem step_ne_next_of_not_running {s : State} (h : s.status ≠ .running) (t : State) : step s ≠ .next t :=
  fun hstep => h (step_running hstep)

/-- A run from a terminal state is the empty one. -/
theorem stepsTo_eq_of_not_running {n : Nat} {s t : State} (h : s.status ≠ .running) (hs : StepsTo n s t) :
    t = s := by
  cases n with
  | zero => exact hs.symm
  | succ n =>
    obtain ⟨u, hu, -⟩ := hs
    exact absurd hu (step_ne_next_of_not_running h u)

/-- Settles O29: a terminal state has no first step. -/
theorem noStepUnlessRunning : Obligations.NoStepUnlessRunning :=
  fun _ h => ⟨step_ne_next_of_not_running h, fun _ _ => stepsTo_eq_of_not_running h⟩

end Sys2Proof.Machine
end

section
/-! PROOF. ADD as unsigned addition (41_arithmetic.md R88): the destination and the flag together hold the exact sum
of the operands, so the order of the operands changes only where the sum goes. -/

namespace Sys2Proof.Machine

theorem wrappedSum_toNat (t : Nat) : (wrappedSum t).toNat = t % 256 :=
  BitVec.toNat_ofNat t 8

/-- Two bytes sum to less than 512, so the one carry bit is the whole quotient (R27, R88). -/
theorem carryOf_sumOf_toNat (a b : Byte) : (carryOf (sumOf a b)).toNat = sumOf a b / 256 := by
  have hlt : sumOf a b < 512 := Nat.add_lt_add a.isLt b.isLt
  by_cases hge : 256 ≤ sumOf a b
  · rw [carryOf, if_pos hge, BitVec.toNat_ofNat]
    omega
  · rw [carryOf, if_neg hge, BitVec.toNat_ofNat]
    omega

theorem sumOf_comm (a b : Byte) : sumOf a b = sumOf b a :=
  Nat.add_comm _ _

/-- Register X keeps the wrapped sum unless the flag, written last, is register X itself (R87, R89). -/
theorem execAdd_getReg_destination {x y : RegIdx} {s t : State} (h : exec (.add x y) s = .next t)
    (hx : x ≠ carryReg) : t.getReg x = wrappedSum (sumOf (s.getReg x) (s.getReg y)) := by
  rw [execAdd_next h, State.getReg_setCarry, if_neg hx.symm, State.getReg_setReg, if_pos rfl]

theorem execAdd_getReg_carryReg_toNat {x y : RegIdx} {s t : State} (h : exec (.add x y) s = .next t) :
    (t.getReg carryReg).toNat = sumOf (s.getReg x) (s.getReg y) / 256 := by
  rw [execAdd_getReg_carryReg h, carryOf_sumOf_toNat]

theorem execAdd_getReg_destination_toNat {x y : RegIdx} {s t : State} (h : exec (.add x y) s = .next t)
    (hx : x ≠ carryReg) : (t.getReg x).toNat = sumOf (s.getReg x) (s.getReg y) % 256 := by
  rw [execAdd_getReg_destination h hx, wrappedSum_toNat]

/-- Settles O18: both orders leave the quotient and the remainder of one sum, which is commutative. -/
theorem addIsExactUnsignedAddition : Obligations.AddIsExactUnsignedAddition := by
  intro x y s
  obtain ⟨t, ht⟩ := exec_total (.add x y) s
  obtain ⟨u, hu⟩ := exec_total (.add y x) s
  have hcomm := sumOf_comm (s.getReg y) (s.getReg x)
  exact ⟨t, u, ht, hu,
    execAdd_getReg_carryReg_toNat ht,
    (execAdd_getReg_carryReg_toNat hu).trans (congrArg (· / 256) hcomm),
    execAdd_getReg_destination_toNat ht,
    fun hy => (execAdd_getReg_destination_toNat hu hy).trans (congrArg (· % 256) hcomm)⟩

end Sys2Proof.Machine
end

section
/-! PROOF. Exceptions (60_exceptions.md R98 to R102, R106): each of the four conditions makes the step take its fault,
every step into FAULTED takes one of the two faults of the core, and the run ends there. -/

namespace Sys2Proof

/-! ### Decoding and the rows that a fault's condition names -/

/-- An instruction's word has the pattern of the instruction's own row. -/
theorem rowOf_matches_of_decode {w : Word} {i : Instr} (h : decode w = .ok i) :
    rowOf i ∈ opcodeTable ∧ (rowOf i).matches w = true := by
  have hrow : Laws.OpcodeRow.Statement i := by
    cases i with
    | halt => exact Laws.OpcodeRow.halt
    | ret => exact Laws.OpcodeRow.ret
    | call addr => exact Laws.OpcodeRow.call addr
    | add x y => exact Laws.OpcodeRow.add x y
  obtain ⟨hmatch, hmem⟩ := hrow
  rw [encode_of_decode h] at hmatch
  exact ⟨hmem, hmatch⟩

/-- A word with the pattern of no row is no instruction (R71). -/
theorem exists_decode_eq_error_of_no_row {w : Word} (h : ∀ row ∈ opcodeTable, row.matches w = false) :
    ∃ e, decode w = .error e := by
  cases hd : decode w with
  | error e => exact ⟨e, rfl⟩
  | ok i =>
    obtain ⟨hmem, hmatch⟩ := rowOf_matches_of_decode hd
    exact absurd hmatch (by simp [h _ hmem])

theorem decode_of_callRow_matches {w : Word} (h : callRow.matches w = true) :
    decode w = .ok (.call (fieldsOf w).addr) :=
  decode_eq_call_iff.mpr ⟨h, fieldsOf_addr_toNat w⟩

end Sys2Proof

namespace Sys2Proof.Machine

/-! ### The step under each condition of a fault: the fetch fault is `step_of_fetch_none` -/

theorem execCall_of_stackFull (addr : BitVec 12) {s : State} (h : s.stackFull) :
    exec (.call addr) s = .next (takeDispatchFault .stackOverflow (encode (.call addr)) s) :=
  if_pos h

theorem execRet_of_stackEmpty {s : State} (h : s.stackEmpty) :
    exec .ret s = .next (takeDispatchFault .stackUnderflow (encode .ret) s) :=
  if_pos h

theorem step_of_no_row {s : State} {w : Word} (hr : s.status = .running) (hf : fetch s = some w)
    (hrow : ∀ row ∈ opcodeTable, row.matches w = false) :
    step s = .next (takeDispatchFault .unimplementedOpcode w (advance s)) := by
  obtain ⟨e, hd⟩ := exists_decode_eq_error_of_no_row hrow
  exact step_of_decode_error hr hf hd

theorem step_of_call_stackFull {s : State} {w : Word} (hr : s.status = .running) (hf : fetch s = some w)
    (hrow : callRow.matches w = true) (hfull : s.stackFull) :
    step s = .next (takeDispatchFault .stackOverflow w (advance s)) := by
  have hd := decode_of_callRow_matches hrow
  have hexec := execCall_of_stackFull (fieldsOf w).addr (s := advance s) hfull
  rw [encode_of_decode hd] at hexec
  exact (step_of_decode_ok hr hf hd).trans hexec

theorem step_of_ret_stackEmpty {s : State} (hr : s.status = .running) (hf : fetch s = some 0x00EE#16)
    (hempty : s.stackEmpty) :
    step s = .next (takeDispatchFault .stackUnderflow 0x00EE#16 (advance s)) :=
  (step_of_decode_ok hr hf (decode_encode .ret)).trans (execRet_of_stackEmpty (s := advance s) hempty)

/-! ### The steps into FAULTED -/

/-- A step that leaves FAULTED took the fetch unit's fault before the advance or a dispatch fault after it: HALT
leaves HALTED, and every completing CALL, RET and ADD keeps RUNNING. -/
theorem step_next_faulted {s t : State} (h : step s = .next t) (ht : t.status = .faulted) :
    t = takeFetchFault s ∨ ∃ reason w, t = takeDispatchFault reason w (advance s) := by
  obtain ⟨hr, hfetch | hunimpl | hhalt | hret | hcall | hadd⟩ := step_next_cases h
  · obtain ⟨-, rfl⟩ := hfetch
    exact .inl rfl
  · obtain ⟨w, -, -, rfl⟩ := hunimpl
    exact .inr ⟨_, _, rfl⟩
  · obtain ⟨w, -, -, rfl⟩ := hhalt
    cases ht
  · obtain ⟨w, -, -, ⟨-, rfl⟩ | ⟨-, rfl⟩⟩ := hret
    · exact .inr ⟨_, _, rfl⟩
    · simp [hr] at ht
  · obtain ⟨w, addr, -, -, ⟨-, rfl⟩ | ⟨-, rfl⟩⟩ := hcall
    · exact .inr ⟨_, _, rfl⟩
    · simp [hr] at ht
  · obtain ⟨w, x, y, -, -, rfl⟩ := hadd
    simp [hr] at ht

theorem exists_fault_of_step_faulted {s t : State} (h : step s = .next t) (ht : t.status = .faulted) :
    ∃ r, t.fault = some r := by
  obtain rfl | ⟨reason, w, rfl⟩ := step_next_faulted h ht
  · exact ⟨_, takeFetchFault_fault s⟩
  · exact ⟨_, takeDispatchFault_fault reason w (advance s)⟩

/-- The executor stops at once in FAULTED, whatever its fuel (R128). -/
theorem runFor_of_faulted {s : State} (h : s.status = .faulted) (n : Nat) : runFor n s = .faulted s := by
  rw [runFor.eq_def, h]

/-- Settles O32: each condition's step takes the fault that bears its reason, and a state that a step leaves FAULTED
holds the record of the fault it took and is terminal for the step and for the executor. -/
theorem everyFaultEndsTheRun : Obligations.EveryFaultEndsTheRun := by
  intro s hr
  refine ⟨fun reason hcond => ?raised, fun t hstep ht => ?final⟩
  case raised =>
    obtain ⟨rfl, hout⟩ | ⟨w, hf, ⟨rfl, hrow⟩ | ⟨rfl, hrow, hfull⟩ | ⟨rfl, rfl, hempty⟩⟩ := hcond
    · exact ⟨_, _, step_of_fetch_none hr (fetch_eq_none_iff.mpr hout), rfl, rfl, rfl⟩
    · exact ⟨_, _, step_of_no_row hr hf hrow, rfl, rfl, rfl⟩
    · exact ⟨_, _, step_of_call_stackFull hr hf hrow hfull, rfl, rfl, rfl⟩
    · exact ⟨_, _, step_of_ret_stackEmpty hr hf hempty, rfl, rfl, rfl⟩
  case final =>
    exact ⟨exists_fault_of_step_faulted hstep ht, step_ne_next_of_not_running (by simp [ht]),
      fun n => (runFor_step hstep).trans (runFor_of_faulted ht n)⟩

/-- Settles O33: taking a fault writes `status` and `fault` alone, and the advance before a dispatch fault the pc. -/
theorem faultEntrySavesAndRedirectsNothing : Obligations.FaultEntrySavesAndRedirectsNothing := by
  intro s t _ hstep ht
  obtain rfl | ⟨reason, w, rfl⟩ := step_next_faulted hstep ht
  · exact ⟨rfl, .inl (takeFetchFault_pc s)⟩
  · exact ⟨rfl, .inr (takeDispatchFault_pc reason w (advance s))⟩

end Sys2Proof.Machine
end

section
/-! PROOF. Construction (70_reset_and_hazards.md R117) and the ends of a run (R130): what the constructed machine
reads, and that a terminal state is its own result. -/

namespace Sys2Proof.Machine

/-! ### What construction leaves -/

/-- Construction lists no cell, so every address reads as an unlisted one does. -/
@[simp] theorem read_construct_mem (c : Config) (a : Nat) : (State.construct c).mem.read a = 0x00#8 := rfl

@[simp] theorem getReg_construct (c : Config) (r : RegIdx) : (State.construct c).getReg r = 0x00#8 :=
  Vector.getElem_replicate r.isLt

@[simp] theorem construct_stack (c : Config) :
    (State.construct c).stack = List.replicate c.stackDepth 0x0000#16 := rfl

/-- Settles O42: no memory cell is listed, and the registers and the call stack are copies of one zero. -/
theorem constructionZeroesEverything : Obligations.ConstructionZeroesEverything := by
  intro c
  refine ⟨fun a _ => read_construct_mem c a, getReg_construct c, ?length, fun k hk => ?entry, rfl⟩
  case length => rw [construct_stack, List.length_replicate]
  case entry => rw [construct_stack, List.getElem?_replicate_of_lt hk]

/-! ### The ends of a run -/

/-- The executor stops at once in HALTED, whatever its fuel (R128). -/
theorem runFor_of_halted {s : State} (h : s.status = .halted) (n : Nat) : runFor n s = .halted s := by
  rw [runFor.eq_def, h]

/-- Settles O35: the executor stops at once in either end, and only the empty run leaves a terminal state. -/
theorem stateSurvivesBothEnds : Obligations.StateSurvivesBothEnds := by
  intro s t n
  refine ⟨fun h => runFor_of_halted h n, fun h => runFor_of_faulted h n, fun h hs => ?_⟩
  obtain rfl := stepsTo_eq_of_not_running h hs
  exact ⟨rfl, rfl⟩

end Sys2Proof.Machine
end

section
/-! PROOF. Encoding (30_encoding.md R60 to R75): bytes and words round-trip, the rows of the opcode table are
disjoint and cover the instructions, how many words are instructions, and the assembler. -/

namespace Sys2Proof

/-! ### Round trips -/

/-- Decoding a word's two bytes decodes the word (R48, R60). -/
theorem decodeBytes_bytesOfWord_append (w : Word) (rest : List Byte) :
    decodeBytes (bytesOfWord w ++ rest) = (decode w).map (fun i => (i, rest)) := by
  simp [bytesOfWord, decodeBytes]

/-- Settles O1: the encoding's bytes form the encoding's word again, and that decodes to its instruction. -/
theorem encodedBytesDecodeToTheInstruction : Obligations.EncodedBytesDecodeToTheInstruction := by
  intro i rest
  rw [encodeBytes, decodeBytes_bytesOfWord_append, decode_encode]
  rfl

theorem encode_injective : Function.Injective encode := by
  intro i j h
  have hi := decode_encode i
  rw [h, decode_encode j] at hi
  exact (Except.ok.inj hi).symm

/-- Settles O2: the decoder's arms, against the encoder. -/
theorem decodedWordIsTheEncoding : Obligations.DecodedWordIsTheEncoding :=
  fun _ _ => encode_of_decode

/-- Settles O7: four words are encodings, and 0x8015 meets none of the decoder's patterns. -/
theorem wordsOfTheSpecDecode : Obligations.WordsOfTheSpecDecode :=
  ⟨decode_encode .halt, decode_encode .ret, decode_encode (.call 0xABC#12), decode_encode (.add 0 14),
    decode_encode (.add 15 1), rfl⟩

/-! ### The rows of the opcode table -/

theorem forall_mem_opcodeTable {P : OpcodeRow → Prop} :
    (∀ row ∈ opcodeTable, P row) ↔ P haltRow ∧ P retRow ∧ P callRow ∧ P addRow := by
  simp [opcodeTable]

/-- A word that has a row's pattern decodes to an instruction of that row. -/
theorem exists_decode_of_row_matches {w : Word} {row : OpcodeRow} (hrow : row ∈ opcodeTable)
    (h : row.matches w = true) : ∃ i, decode w = .ok i ∧ rowOf i = row := by
  revert row
  rw [forall_mem_opcodeTable]
  refine ⟨fun h => ?halt, fun h => ?ret, fun h => ?call, fun h => ?add⟩
  case halt => exact ⟨.halt, decode_eq_halt_iff.mpr h, rfl⟩
  case ret => exact ⟨.ret, decode_eq_ret_iff.mpr h, rfl⟩
  case call => exact ⟨_, decode_of_callRow_matches h, rfl⟩
  case add =>
    exact ⟨.add (regOfField (fieldsOf w).x) (regOfField (fieldsOf w).y),
      decode_eq_add_iff.mpr ⟨h, fieldsOf_x_toNat w, fieldsOf_y_toNat w⟩, rfl⟩

/-- The decoder is a function, so a word has at most one row (R70). -/
theorem opcodeRow_unique {w : Word} {r1 r2 : OpcodeRow} (h1 : r1 ∈ opcodeTable) (h2 : r2 ∈ opcodeTable)
    (hm1 : r1.matches w = true) (hm2 : r2.matches w = true) : r1 = r2 := by
  obtain ⟨i, hi, rfl⟩ := exists_decode_of_row_matches h1 hm1
  obtain ⟨j, hj, rfl⟩ := exists_decode_of_row_matches h2 hm2
  cases hi.symm.trans hj
  rfl

theorem exists_decode_eq_ok_iff {w : Word} :
    (∃ i, decode w = .ok i) ↔ ∃ row ∈ opcodeTable, row.matches w = true := by
  constructor
  · rintro ⟨i, hi⟩
    exact ⟨rowOf i, rowOf_matches_of_decode hi⟩
  · rintro ⟨row, hrow, hmatch⟩
    obtain ⟨i, hi, -⟩ := exists_decode_of_row_matches hrow hmatch
    exact ⟨i, hi⟩

/-- A refused word is reported raw (R71). -/
theorem decode_eq_unimplemented_iff {w : Word} :
    decode w = .error (.unimplementedOpcode w) ↔ ¬ ∃ i, decode w = .ok i := by
  obtain ⟨-, hd⟩ | ⟨-, hd⟩ | ⟨-, hd⟩ | ⟨-, -, hd⟩ | ⟨-, -, -, -, hd⟩ := decode_cases w <;> simp [hd]

theorem no_row_matches_iff {w : Word} :
    (∀ row ∈ opcodeTable, row.matches w = false) ↔ decode w = .error (.unimplementedOpcode w) := by
  rw [decode_eq_unimplemented_iff, exists_decode_eq_ok_iff]
  simp

/-- Settles O4: each row's words decode to that row's instructions, and the decoder answers one thing. -/
theorem tableRowsAreDisjointAndCoverTheInstructions :
    Obligations.TableRowsAreDisjointAndCoverTheInstructions :=
  fun _ => ⟨fun _ h1 _ h2 => opcodeRow_unique h1 h2, exists_decode_eq_ok_iff, no_row_matches_iff⟩

end Sys2Proof

namespace Sys2Proof.Machine

/-! ### Counting words -/

/-- The test that `wordCount` counts holds of the words of the instructions that `p` holds of. -/
theorem decode_toOption_any_iff {p : Instr → Bool} {w : Word} :
    (decode w).toOption.any p = true ↔ ∃ i, p i = true ∧ encode i = w := by
  constructor
  · intro h
    cases hd : decode w with
    | error e => simp [hd, Except.toOption] at h
    | ok i => exact ⟨i, by simpa [hd, Except.toOption] using h, encode_of_decode hd⟩
  · rintro ⟨i, hp, rfl⟩
    simpa [decode_encode, Except.toOption] using hp

/-- Words are counted by their instructions: as many words decode to an instruction of `p` as there are operands,
where `f` lists the instructions of `p`, each once. -/
theorem wordCount_eq_card {α : Type} [Fintype α] {p : Instr → Bool} (f : α → Instr)
    (hinj : Function.Injective f) (hp : ∀ i, p i = true ↔ ∃ a, f a = i) : wordCount p = Fintype.card α := by
  have hword : Function.Injective fun a => (encode (f a)).toNat :=
    fun a b h => hinj (encode_injective (BitVec.eq_of_toNat_eq h))
  have hset : (Finset.range 65536).filter (fun n => (decode (BitVec.ofNat 16 n)).toOption.any p = true) =
      Finset.univ.image fun a => (encode (f a)).toNat := by
    ext n
    simp only [Finset.mem_filter, Finset.mem_range, Finset.mem_image, Finset.mem_univ, true_and,
      decode_toOption_any_iff, hp]
    constructor
    · rintro ⟨hn, _, ⟨a, rfl⟩, hw⟩
      exact ⟨a, by rw [hw, BitVec.toNat_ofNat, Nat.mod_eq_of_lt hn]⟩
    · rintro ⟨a, rfl⟩
      exact ⟨(encode (f a)).isLt, f a, ⟨a, rfl⟩, by simp⟩
  calc wordCount p = Nat.count (fun n => (decode (BitVec.ofNat 16 n)).toOption.any p = true) 65536 := by
        simp [wordCount, Nat.count]
    _ = Fintype.card α := by
        rw [Nat.count_eq_card_filter_range, hset, Finset.card_image_of_injective _ hword, Finset.card_univ]

/-- Each instruction has one word. -/
theorem wordCount_beq (j : Instr) : wordCount (fun i => i == j) = 1 := by
  have hsingle : ∀ i, (i == j) = true ↔ ∃ _ : Unit, j = i :=
    fun i => beq_iff_eq.trans ⟨fun h => ⟨(), h.symm⟩, fun ⟨_, h⟩ => h.symm⟩
  exact (wordCount_eq_card (fun _ => j) (Function.injective_of_subsingleton _) hsingle).trans Fintype.card_unit

/-- The instruction set as a sum of its operand types, one for each constructor. -/
def instrOfOperands : (Unit ⊕ Unit) ⊕ (Fin 4096 ⊕ RegIdx × RegIdx) → Instr
  | .inl (.inl _) => .halt
  | .inl (.inr _) => .ret
  | .inr (.inl a) => .call (BitVec.ofFin a)
  | .inr (.inr (x, y)) => .add x y

theorem instrOfOperands_bijective : Function.Bijective instrOfOperands := by
  constructor
  · rintro ((_ | _) | (a | ⟨x, y⟩)) ((_ | _) | (b | ⟨z, w⟩)) h <;> cases h <;> rfl
  · intro i
    cases i with
    | halt => exact ⟨.inl (.inl ()), rfl⟩
    | ret => exact ⟨.inl (.inr ()), rfl⟩
    | call addr => exact ⟨.inr (.inl addr.toFin), rfl⟩
    | add x y => exact ⟨.inr (.inr (x, y)), rfl⟩

/-- Settles O5: one word for HALT, one for RET, one for each 12-bit target and one for each register pair. -/
theorem fourThousandThreeHundredFiftyFourWordsAreInstructions :
    Obligations.FourThousandThreeHundredFiftyFourWordsAreInstructions := by
  obtain ⟨hinj, hsurj⟩ := instrOfOperands_bijective
  have hright := hinj.comp Sum.inr_injective
  refine ⟨?all, ?halt, ?ret, ?call, ?add⟩
  case all =>
    refine (wordCount_eq_card instrOfOperands hinj fun i => ?_).trans (by simp)
    simpa using hsurj i
  case halt => exact wordCount_beq .halt
  case ret => exact wordCount_beq .ret
  case call =>
    refine (wordCount_eq_card _ (hright.comp Sum.inl_injective) fun i => ?_).trans (Fintype.card_fin 4096)
    cases i with
    | call addr => exact iff_of_true rfl ⟨addr.toFin, rfl⟩
    | halt | ret | add => simp [instrOfOperands]
  case add =>
    refine (wordCount_eq_card _ (hright.comp Sum.inr_injective) fun i => ?_).trans (by simp)
    cases i with
    | add x y => exact iff_of_true rfl ⟨(x, y), rfl⟩
    | halt | ret | call => simp [instrOfOperands]

end Sys2Proof.Machine

namespace Sys2Proof

/-! ### The assembler -/

@[simp] theorem hexDigit_hexChar (n : Fin 16) : hexDigit (hexChar n) = some n := by
  revert n
  decide

/-- The three hexadecimal digits of CALL's text write its target (R74). -/
theorem hexNumber_callDigits (addr : BitVec 12) :
    hexNumber ['0', 'x', hexChar (addr.extractLsb' 8 4).toFin, hexChar (addr.extractLsb' 4 4).toFin,
      hexChar (addr.extractLsb' 0 4).toFin] = some addr.toNat := by
  have := addr.isLt
  simp only [hexNumber, hexDigits, hexDigit_hexChar, BitVec.val_toFin, BitVec.extractLsb'_toNat,
    Nat.shiftRight_eq_div_pow, Option.some.injEq]
  omega

/-- Reading an instruction's text gives the instruction's line. -/
theorem parseLine_textOf (i : Instr) : parseLine (textOf i) = some (AsmLine.ofInstr i) := by
  cases i with
  | halt => rfl
  | ret => rfl
  | call addr =>
    simp only [textOf, parseLine, hexNumber_callDigits]
    rfl
  | add x y => simp [textOf, parseLine, regOfName, AsmLine.ofInstr]

/-- The operands of an instruction are within R74's ranges, so its line assembles to its word. -/
theorem assemble_ofInstr (i : Instr) : assemble (AsmLine.ofInstr i) = some (encode i) := by
  cases i with
  | halt => rfl
  | ret => rfl
  | call addr =>
    have hwf : (AsmLine.call addr.toNat).wellFormed = true := decide_eq_true (Nat.le_of_lt_succ addr.isLt)
    simp [AsmLine.ofInstr, assemble, hwf]
  | add x y =>
    have hwf : (AsmLine.add x.val y.val).wellFormed = true := by
      have := x.isLt
      have := y.isLt
      simp only [AsmLine.wellFormed, Bool.and_eq_true, decide_eq_true_eq]
      omega
    simp [AsmLine.ofInstr, assemble, hwf]

theorem assemble_of_not_wellFormed {l : AsmLine} (h : l.wellFormed = false) : assemble l = none := by
  simp [assemble, h]

/-- A raw word is placed as written (R74). -/
theorem assemble_word (w : Word) : assemble (.word w.toNat) = some w := by
  have hwf : (AsmLine.word w.toNat).wellFormed = true := decide_eq_true (Nat.le_of_lt_succ w.isLt)
  simp [assemble, hwf]

/-- Settles O8: an instruction's text reads as its line and its line assembles to its word, and the check of a line
refuses an operand out of range. -/
theorem assemblerWritesTheEncoding : Obligations.AssemblerWritesTheEncoding := by
  refine ⟨fun i => ?text, assemble_ofInstr, fun n hn => ?call, fun x y hxy => ?add, assemble_word⟩
  case text => rw [assembleText, parseLine_textOf, Option.bind_some, assemble_ofInstr]
  case call => exact assemble_of_not_wellFormed (by simp [AsmLine.wellFormed, hn])
  case add =>
    refine assemble_of_not_wellFormed ?_
    simp only [AsmLine.wellFormed, Bool.and_eq_false_iff, decide_eq_false_iff_not]
    omega

end Sys2Proof
end

section
/-! PROOF. What a step may change: memory (20_memory.md R52, R56), the call stack (10_state.md R30 to R32) and the
fault record (60_exceptions.md R103); from these, the invariant that every step keeps. -/

namespace Sys2Proof.Machine

/-! ### Memory -/

/-- No instruction performs a `MemWrite` (R56) or writes the configuration (R10). -/
theorem exec_cfg_mem {i : Instr} {s t : State} (h : exec i s = .next t) : t.cfg = s.cfg ∧ t.mem = s.mem := by
  cases i with
  | halt => simp [execHalt_next h]
  | ret => obtain ⟨-, rfl⟩ | ⟨-, rfl⟩ := execRet_next h <;> simp
  | call addr => obtain ⟨-, rfl⟩ | ⟨-, rfl⟩ := execCall_next h <;> simp
  | add x y => simp [execAdd_next h]

theorem step_mem {s t : State} (h : step s = .next t) : t.mem = s.mem := by
  obtain ⟨-, ⟨-, rfl⟩ | ⟨w, -, -, rfl⟩ | ⟨w, i, -, -, he⟩⟩ := step_next h
  · simp
  · simp
  · exact (exec_cfg_mem he).2.trans (advance_mem s)

theorem stepsTo_mem {n : Nat} {s t : State} (h : StepsTo n s t) : t.mem = s.mem :=
  stepsTo_preserves (P := fun u => u.mem = s.mem) (fun _ _ hu hstep => (step_mem hstep).trans hu) rfl h

/-- The fetch looks at the configuration, the pc and memory only. -/
theorem fetch_congr {s t : State} (hcfg : t.cfg = s.cfg) (hmem : t.mem = s.mem) (hpc : t.pc = s.pc) :
    fetch t = fetch s := by
  rw [fetch, fetch, hcfg, hmem, hpc]

/-- Settles O37: no step writes memory or the configuration. -/
theorem memoryIsConstantDuringARun : Obligations.MemoryIsConstantDuringARun := by
  intro n s t h
  have hmem := stepsTo_mem h
  exact ⟨hmem, fun a => by rw [hmem], fetch_congr (stepsTo_cfg h) hmem⟩

/-! ### The call stack -/

/-- What a step does to the call stack: a CALL with room pushes, a RET with an entry pops and leaves the entry in
place, and every other step leaves it alone. -/
theorem step_callStack {s t : State} (h : step s = .next t) :
    (∃ w addr, fetch s = some w ∧ decode w = .ok (.call addr) ∧ s.sp < s.cfg.stackDepth ∧
      t.sp = s.sp + 1 ∧ t.stack = s.stack.set s.sp (s.pc + 2#16)) ∨
    (∃ w, fetch s = some w ∧ decode w = .ok .ret ∧ t.sp + 1 = s.sp ∧ t.stack = s.stack) ∨
    (t.sp = s.sp ∧ t.stack = s.stack) := by
  obtain ⟨-, hfetch | hunimpl | hhalt | hret | hcall | hadd⟩ := step_next_cases h
  · obtain ⟨-, rfl⟩ := hfetch
    exact .inr (.inr ⟨rfl, rfl⟩)
  · obtain ⟨w, -, -, rfl⟩ := hunimpl
    exact .inr (.inr ⟨rfl, rfl⟩)
  · obtain ⟨w, -, -, rfl⟩ := hhalt
    exact .inr (.inr ⟨rfl, rfl⟩)
  · obtain ⟨w, hf, hd, ⟨-, rfl⟩ | ⟨hused, rfl⟩⟩ := hret
    · exact .inr (.inr ⟨rfl, rfl⟩)
    · exact .inr (.inl ⟨w, hf, hd, Nat.sub_add_cancel hused, rfl⟩)
  · obtain ⟨w, addr, hf, hd, ⟨-, rfl⟩ | ⟨hroom, rfl⟩⟩ := hcall
    · exact .inr (.inr ⟨rfl, rfl⟩)
    · exact .inl ⟨w, addr, hf, hd, hroom, rfl, rfl⟩
  · obtain ⟨w, x, y, -, -, rfl⟩ := hadd
    exact .inr (.inr ⟨rfl, rfl⟩)

/-- Settles O38: the three things a step does to the call stack, without CALL's bound. -/
theorem callStackMovesOnlyByCallAndRet : Obligations.CallStackMovesOnlyByCallAndRet := by
  intro s t h
  obtain ⟨w, addr, hf, hd, -, hpush⟩ | hpop | hsame := step_callStack h
  · exact .inl ⟨w, addr, hf, hd, hpush⟩
  · exact .inr (.inl hpop)
  · exact .inr (.inr hsame)

/-! ### The fault record -/

/-- A step into FAULTED by the condition of its fault, row by row of R103's table. -/
theorem step_next_faulted_cases {s t : State} (h : step s = .next t) (ht : t.status = .faulted) :
    (s.cfg.memSize ≤ s.pc.toNat + 1 ∧ t = takeFetchFault s) ∨
    (∃ w, fetch s = some w ∧
      (((∀ row ∈ opcodeTable, row.matches w = false) ∧
          t = takeDispatchFault .unimplementedOpcode w (advance s)) ∨
       (callRow.matches w = true ∧ s.cfg.stackDepth ≤ s.sp ∧
          t = takeDispatchFault .stackOverflow w (advance s)) ∨
       (w = 0x00EE#16 ∧ s.sp = 0 ∧ t = takeDispatchFault .stackUnderflow w (advance s)))) := by
  obtain ⟨hr, hfetch | hunimpl | hhalt | hret | hcall | hadd⟩ := step_next_cases h
  · obtain ⟨hf, rfl⟩ := hfetch
    exact .inl ⟨fetch_eq_none_iff.mp hf, rfl⟩
  · obtain ⟨w, hf, hd, rfl⟩ := hunimpl
    exact .inr ⟨w, hf, .inl ⟨no_row_matches_iff.mpr hd, rfl⟩⟩
  · obtain ⟨w, -, -, rfl⟩ := hhalt
    cases ht
  · obtain ⟨w, hf, hd, ⟨hempty, rfl⟩ | ⟨-, rfl⟩⟩ := hret
    · obtain rfl := encode_of_decode hd
      exact .inr ⟨_, hf, .inr (.inr ⟨rfl, hempty, rfl⟩)⟩
    · simp [hr] at ht
  · obtain ⟨w, addr, hf, hd, ⟨hfull, rfl⟩ | ⟨-, rfl⟩⟩ := hcall
    · obtain rfl := encode_of_decode hd
      exact .inr ⟨_, hf, .inr (.inl ⟨(decode_eq_call_iff.mp hd).1, hfull, rfl⟩)⟩
    · simp [hr] at ht
  · obtain ⟨w, x, y, -, -, rfl⟩ := hadd
    simp [hr] at ht

/-- Only a fault writes the fault record (R34). -/
theorem step_fault_of_not_faulted {s t : State} (h : step s = .next t) (ht : t.status ≠ .faulted) :
    t.fault = s.fault := by
  obtain ⟨-, hfetch | hunimpl | hhalt | hret | hcall | hadd⟩ := step_next_cases h
  · obtain ⟨-, rfl⟩ := hfetch
    exact absurd rfl ht
  · obtain ⟨w, -, -, rfl⟩ := hunimpl
    exact absurd rfl ht
  · obtain ⟨w, -, -, rfl⟩ := hhalt
    rfl
  · obtain ⟨w, -, -, ⟨-, rfl⟩ | ⟨-, rfl⟩⟩ := hret
    · exact absurd rfl ht
    · rfl
  · obtain ⟨w, addr, -, -, ⟨-, rfl⟩ | ⟨-, rfl⟩⟩ := hcall
    · exact absurd rfl ht
    · rfl
  · obtain ⟨w, x, y, -, -, rfl⟩ := hadd
    rfl

/-- The record of a step's fault is true of the faulted state (R103). On a well-formed stack, full is exactly
STACK_DEPTH entries. -/
theorem step_matchesRecord {s t : State} (hwf : s.Wf) (h : step s = .next t) (ht : t.status = .faulted) :
    ∃ r, t.fault = some r ∧ t.matchesRecord r := by
  obtain ⟨hout, rfl⟩ | ⟨w, hf, hcase⟩ := step_next_faulted_cases h ht
  · exact ⟨_, takeFetchFault_fault s, rfl, hout⟩
  · have hw : w = s.mem.word s.pc.toNat := (fetch_eq_some_iff.mp hf).2
    have haddr : (advance s).fetchPc = s.pc := fetchPc_advance s
    obtain ⟨hrow, rfl⟩ | ⟨hrow, hfull, rfl⟩ | ⟨hret, hempty, rfl⟩ := hcase <;>
      refine ⟨_, takeDispatchFault_fault _ w (advance s), ?_⟩ <;>
      simp only [State.matchesRecord, haddr, takeDispatchFault_pc, advance_pc, takeDispatchFault_mem,
        advance_mem, takeDispatchFault_sp, advance_sp, takeDispatchFault_cfg, advance_cfg, true_and]
    · exact ⟨hw, hrow⟩
    · exact ⟨hw, hrow, Nat.le_antisymm hwf.sp_le hfull⟩
    · exact ⟨hw, hret, hempty⟩

/-- Settles O34: each condition's step is its fault, and a step into FAULTED met one of the four conditions. -/
theorem faultsOfAStepAndTheirRecords : Obligations.FaultsOfAStepAndTheirRecords := by
  intro s t hr hstep
  have hnext {u : State} (hu : step s = .next u) (hfaulted : u.status = .faulted) : t.status = .faulted := by
    cases hstep.symm.trans hu
    exact hfaulted
  refine ⟨fun ht => ?record, fun hout => ?fetch, fun w hf hrow => ?unimplemented, fun w hf hrow hfull => ?full,
    fun hf hempty => ?empty⟩
  case record =>
    obtain ⟨hout, rfl⟩ | ⟨w, hf, hcase⟩ := step_next_faulted_cases hstep ht
    · exact ⟨_, takeFetchFault_fault s, rfl, .inl ⟨rfl, rfl, rfl, hout⟩⟩
    · have haddr : (advance s).fetchPc = s.pc := fetchPc_advance s
      obtain ⟨hrow, rfl⟩ | ⟨hrow, hfull, rfl⟩ | ⟨hret, hempty, rfl⟩ := hcase <;>
        refine ⟨_, takeDispatchFault_fault _ w (advance s), haddr, .inr ⟨w, hf, rfl, rfl, ?_⟩⟩
      · exact .inl ⟨rfl, hrow⟩
      · exact .inr (.inl ⟨rfl, hrow, hfull⟩)
      · exact .inr (.inr ⟨rfl, hret, hempty⟩)
  case fetch => exact hnext (step_of_fetch_none hr (fetch_eq_none_iff.mpr hout)) rfl
  case unimplemented => exact hnext (step_of_no_row hr hf hrow) rfl
  case full => exact hnext (step_of_call_stackFull hr hf hrow hfull) rfl
  case empty => exact hnext (step_of_ret_stackEmpty hr hf hempty) rfl

/-! ### The invariant -/

/-- The entry a CALL pushes is at most MEM_SIZE (R26), and no other step writes an entry. -/
theorem step_stack_le {s t : State} (hwf : s.Wf) (h : step s = .next t) :
    ∀ v ∈ t.stack, v.toNat ≤ s.cfg.memSize := by
  intro v hv
  obtain ⟨w, addr, hf, -, -, -, hstack⟩ | ⟨-, -, -, -, hstack⟩ | ⟨-, hstack⟩ := step_callStack h <;>
    rw [hstack] at hv
  · obtain hv | rfl := List.mem_or_eq_of_mem_set hv
    · exact hwf.stack_le v hv
    · obtain ⟨hexact, hle⟩ := advance_pc_toNat hwf.cfg_ok hf
      omega
  · exact hwf.stack_le v hv
  · exact hwf.stack_le v hv

theorem step_wf {s t : State} (hwf : s.Wf) (h : step s = .next t) : t.Wf := by
  have hcfg := step_cfg h
  have hmem := step_mem h
  have hsp_le := hwf.sp_le
  have hcall := step_callStack h
  constructor
  case cfg_ok => exact hcfg ▸ hwf.cfg_ok
  case sp_le =>
    rw [hcfg]
    obtain ⟨w, addr, -, -, hroom, hsp, -⟩ | ⟨w, -, -, hsp, -⟩ | ⟨hsp, -⟩ := hcall <;> omega
  case stack_len =>
    rw [hcfg, ← hwf.stack_len]
    obtain ⟨w, addr, -, -, -, -, hstack⟩ | ⟨w, -, -, -, hstack⟩ | ⟨-, hstack⟩ := hcall <;> simp [hstack]
  case stack_le => exact hcfg ▸ step_stack_le hwf h
  case mem_wf => exact hmem ▸ hwf.mem_wf
  case mem_within => exact hcfg ▸ hmem ▸ hwf.mem_within

theorem State.faultWf_iff {s : State} :
    s.FaultWf ↔ if s.status = .faulted then ∃ r, s.fault = some r ∧ s.matchesRecord r else s.fault = none := by
  unfold State.FaultWf
  cases s.status <;> cases s.fault <;> simp

/-- A step into FAULTED leaves a true record; any other leaves the record that a RUNNING state has, none. -/
theorem step_faultWf {s t : State} (hinv : s.Inv) (h : step s = .next t) : t.FaultWf := by
  have hnone : s.fault = none := by simpa [step_running h] using State.faultWf_iff.mp hinv.fault_wf
  rw [State.faultWf_iff]
  split
  · exact step_matchesRecord hinv.wf h ‹_›
  · exact (step_fault_of_not_faulted h ‹_›).trans hnone

/-- Settles O41: well-formedness and the truth of the record, each kept by every step. -/
theorem everyStepKeepsTheInvariant : Obligations.EveryStepKeepsTheInvariant :=
  fun _ _ hinv hstep => ⟨step_wf hinv.wf hstep, step_faultWf hinv hstep⟩

end Sys2Proof.Machine
end

section
/-! PROOF. The four instructions, as meanings and as steps (41_arithmetic.md, 42_subroutine.md, 43_system.md), and
what each may touch (40_cycle.md R82). -/

namespace Sys2Proof.Machine

/-! ### The meanings -/

/-- Settles O16: HALT's meaning is this one update. -/
theorem haltCompletes : Obligations.HaltCompletes :=
  fun _ => rfl

theorem execCall_of_room (addr : BitVec 12) {s : State} (h : s.sp < s.cfg.stackDepth) :
    exec (.call addr) s = .next (jump (callTarget addr) (pushReturn s)) :=
  if_neg (Nat.not_le.mpr h)

theorem execRet_of_entry {s : State} (h : 0 < s.sp) : exec .ret s = .next (popReturn s) :=
  if_neg (Nat.pos_iff_ne_zero.mp h)

/-- Settles O21: with room, CALL pushes and jumps. -/
theorem callCompletes : Obligations.CallCompletes :=
  fun addr _ h => execCall_of_room addr h

/-- Settles O22: with an entry, RET pops. -/
theorem retCompletes : Obligations.RetCompletes :=
  fun _ h => execRet_of_entry h

/-- Settles O23: on a full call stack CALL takes its fault, whose raw word is CALL's encoding. -/
theorem callOnAFullStackOverflows : Obligations.CallOnAFullStackOverflows :=
  fun addr _ h => execCall_of_stackFull addr h

/-- Settles O24: on an empty call stack RET takes its fault. -/
theorem retOnAnEmptyStackUnderflows : Obligations.RetOnAnEmptyStackUnderflows :=
  fun _ h => execRet_of_stackEmpty h

/-- A register that is neither the destination nor the flag keeps its value (R87). -/
theorem execAdd_getReg_of_ne {x y r : RegIdx} {s t : State} (h : exec (.add x y) s = .next t) (hx : r ≠ x)
    (hcarry : r ≠ carryReg) : t.getReg r = s.getReg r := by
  rw [execAdd_next h, State.getReg_setCarry, if_neg hcarry.symm, State.getReg_setReg, if_neg hx.symm]

/-- ADD writes the register file alone (R82). -/
theorem execAdd_frame {x y : RegIdx} {s t : State} (h : exec (.add x y) s = .next t) :
    t = { s with regs := t.regs } := by
  rw [execAdd_next h]
  rfl

theorem carryOf_toNat (t : Nat) : (carryOf t).toNat = if t ≥ 256 then 1 else 0 := by
  by_cases h : 256 ≤ t <;> simp [carryOf, h]

/-- Settles O17: the flag, the destination and the other registers by their own laws, and ADD's frame. -/
theorem addCompletes : Obligations.AddCompletes := by
  intro x y s
  obtain ⟨t, ht⟩ := exec_total (.add x y) s
  refine ⟨t, ht, fun r => ?register, ?frame⟩
  case register =>
    split
    · next hr => rw [hr, execAdd_getReg_carryReg ht, carryOf_toNat]; rfl
    · next hr =>
      split
      · next hx => subst hx; exact execAdd_getReg_destination_toNat ht hr
      · next hx => rw [execAdd_getReg_of_ne ht hx hr]
  case frame =>
    rw [execAdd_frame ht]
    simp

/-- What is written does not depend on memory, `status` or `fault`, and each of these is afterwards as it was or as
the operation set it (R82). -/
theorem exec_reads_frame {i : Instr} {s t : State} (h : exec i s = .next t) (m : Memory) (st : Status)
    (f : Option FaultRecord) :
    ∃ u, exec i { s with mem := m, status := st, fault := f } = .next u ∧
      u.mem = m ∧ u.regs = t.regs ∧ u.pc = t.pc ∧ u.sp = t.sp ∧ u.stack = t.stack ∧ u.cfg = t.cfg ∧
      ((t.status = s.status ∧ u.status = st) ∨ t.status = u.status) ∧
      ((t.fault = s.fault ∧ u.fault = f) ∨ t.fault = u.fault) := by
  cases i with
  | halt =>
    obtain rfl := execHalt_next h
    exact ⟨_, rfl, rfl, rfl, rfl, rfl, rfl, rfl, .inr rfl, .inl ⟨rfl, rfl⟩⟩
  | ret =>
    obtain ⟨hempty, rfl⟩ | ⟨hused, rfl⟩ := execRet_next h
    · exact ⟨_, execRet_of_stackEmpty hempty, rfl, rfl, rfl, rfl, rfl, rfl, .inr rfl, .inr rfl⟩
    · exact ⟨_, execRet_of_entry hused, rfl, rfl, rfl, rfl, rfl, rfl, .inl ⟨rfl, rfl⟩, .inl ⟨rfl, rfl⟩⟩
  | call addr =>
    obtain ⟨hfull, rfl⟩ | ⟨hroom, rfl⟩ := execCall_next h
    · exact ⟨_, execCall_of_stackFull addr hfull, rfl, rfl, rfl, rfl, rfl, rfl, .inr rfl, .inr rfl⟩
    · exact ⟨_, execCall_of_room addr hroom, rfl, rfl, rfl, rfl, rfl, rfl, .inl ⟨rfl, rfl⟩, .inl ⟨rfl, rfl⟩⟩
  | add x y =>
    obtain rfl := execAdd_next h
    exact ⟨_, rfl, rfl, rfl, rfl, rfl, rfl, rfl, .inl ⟨rfl, rfl⟩, .inl ⟨rfl, rfl⟩⟩

/-- A push writes no other entry (R31). -/
theorem stackAt_set_of_ne {s : State} {i k : Nat} (v : Word) (h : k ≠ i) :
    ({ s with stack := s.stack.set i v } : State).stackAt k = s.stackAt k := by
  simp [State.stackAt, List.getD_eq_getElem?_getD, List.getElem?_set_ne h.symm]

/-- Settles O28: memory and the configuration by their own law, the other writes case by case of each meaning. -/
theorem operationsTouchOnlyTheirOwnState : Obligations.OperationsTouchOnlyTheirOwnState := by
  intro i s
  obtain ⟨t, ht⟩ := exec_total i s
  obtain ⟨hcfg, hmem⟩ := exec_cfg_mem ht
  refine ⟨t, ht, hcfg, hmem, fun a => by rw [hmem], ?writes, exec_reads_frame ht⟩
  cases i with
  | halt =>
    obtain rfl := execHalt_next ht
    exact ⟨rfl, rfl, rfl, rfl, rfl⟩
  | ret =>
    obtain ⟨-, rfl⟩ | ⟨-, rfl⟩ := execRet_next ht
    · exact ⟨rfl, rfl, .inr ⟨rfl, rfl, rfl⟩⟩
    · exact ⟨rfl, rfl, .inl ⟨rfl, rfl⟩⟩
  | call addr =>
    obtain ⟨-, rfl⟩ | ⟨-, rfl⟩ := execCall_next ht
    · exact ⟨rfl, fun _ _ => rfl, .inr ⟨rfl, rfl, rfl, rfl⟩⟩
    · exact ⟨rfl, fun k hk => stackAt_set_of_ne s.pc hk, .inl ⟨rfl, rfl⟩⟩
  | add x y =>
    refine ⟨fun r hx hcarry => execAdd_getReg_of_ne ht hx hcarry, ?_⟩
    rw [execAdd_frame ht]
    simp

/-! ### The steps -/

/-- Settles O27: HALT's word runs HALT on the advanced state. -/
theorem haltWordSteps : Obligations.HaltWordSteps :=
  fun _ ⟨hr, hf⟩ => step_of_decode_ok hr hf (decode_encode .halt)

theorem step_of_ret_entry {s : State} (hs : s.fetches 0x00EE#16) (hused : 0 < s.sp) :
    step s = .next (popReturn (advance s)) := by
  obtain ⟨hr, hf⟩ := hs
  exact (step_of_decode_ok hr hf (decode_encode .ret)).trans (execRet_of_entry hused)

theorem step_of_call_room {s : State} {w : Word} {addr : BitVec 12} (hs : s.fetches w)
    (hd : decode w = .ok (.call addr)) (hroom : s.sp < s.cfg.stackDepth) :
    step s = .next (jump (callTarget addr) (pushReturn (advance s))) := by
  obtain ⟨hr, hf⟩ := hs
  exact (step_of_decode_ok hr hf hd).trans (execCall_of_room addr hroom)

/-- Settles O26: RET's word runs RET on the advanced state, whose call stack is the one before. -/
theorem retWordSteps : Obligations.RetWordSteps := by
  intro s hs
  refine ⟨fun hempty => ?empty, fun k hk => ?entry⟩
  case empty => rw [step_of_ret_stackEmpty hs.1 hs.2 hempty, takeDispatchFault_advance]; rfl
  case entry =>
    rw [step_of_ret_entry hs (by omega)]
    simp [popReturn, advance, hk, State.stackAt]

/-- The entry a CALL pushes can be read back: a well-formed call stack has an entry at `sp` while there is room. -/
theorem stackAt_of_set {s t : State} (hwf : s.Wf) (hroom : s.sp < s.cfg.stackDepth) {v : Word}
    (hstack : t.stack = s.stack.set s.sp v) : t.stackAt s.sp = v := by
  have hlt : s.sp < s.stack.length := hwf.stack_len ▸ hroom
  simp [State.stackAt, hstack, List.getD_eq_getElem?_getD, hlt]

/-- Settles O25: a word of CALL's row runs CALL on the advanced state. -/
theorem callWordSteps : Obligations.CallWordSteps := by
  intro s w hwf hs hmask
  have hrow : callRow.matches w = true := OpcodeRow.matches_iff.mpr hmask
  refine ⟨fun hfull => ?full, fun hroom => ?room⟩
  case full => rw [step_of_call_stackFull hs.1 hs.2 hrow hfull, takeDispatchFault_advance]; rfl
  case room =>
    refine ⟨_, step_of_call_room hs (decode_of_callRow_matches hrow) hroom, ?_⟩
    refine ⟨stackAt_of_set hwf hroom rfl, fun k hk => stackAt_set_of_ne (s := s) _ hk, List.length_set, rfl, ?_,
      rfl, rfl, hs.1, rfl, rfl⟩
    rw [jump_pc, callTarget, BitVec.toNat_setWidth, fieldsOf_addr_toNat]
    omega

/-- Settles O19: the word is ADD's encoding, and runs ADD on the advanced state. -/
theorem addWordSteps : Obligations.AddWordSteps := by
  rintro s x y ⟨hr, hf⟩
  have hword : BitVec.ofNat 16 (0x8004 + 256 * x.val + 16 * y.val) = encode (.add x y) := by
    rw [← encode_add_toNat, BitVec.ofNat_toNat, BitVec.setWidth_eq]
  obtain ⟨t, ht⟩ := exec_total (.add x y) (advance s)
  refine ⟨t, (step_of_decode_ok hr (hword ▸ hf) (decode_encode _)).trans ht, ?_⟩
  have hframe := execAdd_frame ht
  have hdest := execAdd_getReg_destination_toNat ht
  have hcarry := execAdd_getReg_carryReg_toNat ht
  have hother := fun r => execAdd_getReg_of_ne (r := r) ht
  refine ⟨?status, ?pc, hdest, hcarry, hother, ?frame⟩
  case status => rw [hframe]; exact hr
  case pc => rw [hframe]; rfl
  case frame => rw [hframe]; exact ⟨rfl, rfl, rfl, rfl, rfl⟩

end Sys2Proof.Machine
end

section
/-! PROOF. The step of a running machine (40_cycle.md R83, R84): it is total, it is the listing of R83, it stops by
name in a terminal state, and its pc never wraps (10_state.md R26). -/

namespace Sys2Proof.Machine

/-! ### Totality -/

/-- Every running machine steps (R84). -/
theorem step_total {s : State} (hr : s.status = .running) : ∃ t, step s = .next t := by
  cases hf : fetch s with
  | none => exact ⟨_, step_of_fetch_none hr hf⟩
  | some w =>
    cases hd : decode w with
    | error e => exact ⟨_, step_of_decode_error hr hf hd⟩
    | ok i =>
      obtain ⟨t, ht⟩ := exec_total i (advance s)
      exact ⟨t, (step_of_decode_ok hr hf hd).trans ht⟩

/-- Settles O31: the step is total, and a step into FAULTED leaves a record. -/
theorem everyRunningMachineSteps : Obligations.EveryRunningMachineSteps := by
  intro s hr
  obtain ⟨t, ht⟩ := step_total hr
  refine ⟨t, ht, ?_⟩
  cases hst : t.status with
  | running => exact .inl rfl
  | halted => exact .inr (.inl rfl)
  | faulted => exact .inr (.inr ⟨rfl, exists_fault_of_step_faulted ht hst⟩)

theorem step_of_halted {s : State} (h : s.status = .halted) : step s = .fault .halted := by
  rw [step, h]

theorem step_of_faulted {s : State} (h : s.status = .faulted) : step s = .fault (.faulted s.fault) := by
  rw [step, h]

/-- Settles O30: the run state picks the answer, and a running machine steps. -/
theorem terminalStatesStopByName : Obligations.TerminalStatesStopByName := by
  intro s
  refine ⟨step_of_halted, step_of_faulted, fun r hrefused => ?_⟩
  cases hst : s.status with
  | running =>
    obtain ⟨t, ht⟩ := step_total hst
    cases ht.symm.trans hrefused
  | halted => cases (step_of_halted hst).symm.trans hrefused
  | faulted => cases (step_of_faulted hst).symm.trans hrefused

/-- Decoding the two bytes of an address decodes the word there (R47, R60). -/
theorem decodeBytes_read (m : Memory) (a : Nat) (rest : List Byte) :
    decodeBytes (m.read a :: m.read (a + 1) :: rest) = (decode (m.word a)).map (fun i => (i, rest)) :=
  rfl

/-- Settles O11: the two bytes are the fetched word's. -/
theorem stepRunsTheDecodedInstruction : Obligations.StepRunsTheDecodedInstruction := by
  intro s i rest hr hin hdec
  have hf : fetch s = some (s.mem.word s.pc.toNat) := fetch_eq_some_iff.mpr ⟨hin, rfl⟩
  rw [decodeBytes_read] at hdec
  cases hd : decode (s.mem.word s.pc.toNat) with
  | error e => rw [hd] at hdec; cases hdec
  | ok j =>
    rw [hd] at hdec
    cases hdec
    exact step_of_decode_ok hr hf hd

/-! ### The pc -/

theorem stackAt_le {s : State} (hwf : s.Wf) (k : Nat) : (s.stackAt k).toNat ≤ s.cfg.memSize := by
  rw [State.stackAt, List.getD_eq_getElem?_getD]
  cases hk : s.stack[k]? with
  | none => simp
  | some v => exact hwf.stack_le v (List.mem_of_getElem? hk)

theorem callTarget_toNat_lt (addr : BitVec 12) : (callTarget addr).toNat < 4096 := by
  have := addr.isLt
  rw [callTarget, BitVec.toNat_setWidth]
  omega

/-- Settles O14: the pc after a step is the advanced one, a 12-bit target or a call-stack entry. -/
theorem pcNeverWraps : Obligations.PcNeverWraps := by
  intro s t w hwf hs hstep
  obtain ⟨hr, hf⟩ := hs
  have hmem : s.cfg.memSize ≤ 4096 := hwf.cfg_ok.2.1
  obtain ⟨hexact, hle⟩ := advance_pc_toNat hwf.cfg_ok hf
  refine ⟨hexact, ?_⟩
  have hadvanced (h : t.pc = s.pc + 2#16) : t.pc.toNat ≤ 4096 := by rw [h]; omega
  obtain ⟨-, hfetch | hunimpl | hhalt | hret | hcall | hadd⟩ := step_next_cases hstep
  · obtain ⟨hnone, -⟩ := hfetch
    simp [hnone] at hf
  · obtain ⟨w, -, -, rfl⟩ := hunimpl
    exact hadvanced rfl
  · obtain ⟨w, -, -, rfl⟩ := hhalt
    exact hadvanced rfl
  · obtain ⟨w, -, -, ⟨-, rfl⟩ | ⟨-, rfl⟩⟩ := hret
    · exact hadvanced rfl
    · exact (stackAt_le hwf _).trans hmem
  · obtain ⟨w, addr, -, -, ⟨-, rfl⟩ | ⟨-, rfl⟩⟩ := hcall
    · exact hadvanced rfl
    · exact (callTarget_toNat_lt addr).le
  · obtain ⟨w, x, y, -, -, rfl⟩ := hadd
    exact hadvanced rfl

/-! ### The listing of R83 -/

theorem listing_of_fetch_none {s : State} (hf : fetch s = none) : listing s = takeFetchFault s := by
  have hout : s.pc.toNat + 1 ≥ s.cfg.memSize := fetch_eq_none_iff.mp hf
  simp [listing, hout, takeFetchFault, takeFault]

/-- The listing's `raise`, on the numbers of a fetched word and of its address, is the dispatcher's fault. -/
theorem listingRaise_eq (reason : FaultReason) (w : Word) (s : State) :
    listingRaise reason s.pc.toNat w.toNat (s.pc + 2#16) s = takeDispatchFault reason w (advance s) := by
  rw [takeDispatchFault_advance]
  simp [listingRaise, advance]

/-- A register, read and written in the listing's spelling (R64). -/
theorem getD_regs_toList (s : State) (r : RegIdx) : s.regs.toList.getD r.val 0#8 = s.getReg r := by
  have hlt : r.val < s.regs.toList.length := by simp
  rw [List.getD_eq_getElem _ _ hlt]
  rfl

theorem setIfInBounds_regs (s : State) (r : RegIdx) (v : Byte) :
    s.regs.setIfInBounds r.val v = (s.setReg r v).regs := by
  apply Vector.ext
  intro i hi
  simp [Vector.getElem_setIfInBounds, Vector.getElem_set]

/-- ADD's two writes in the listing's spelling (R87). -/
theorem setIfInBounds_regs_add (s : State) (x : RegIdx) (t : Nat) :
    (s.regs.setIfInBounds x.val (BitVec.ofNat 8 (t % 256))).setIfInBounds 15 (if t ≥ 256 then 1#8 else 0#8) =
      ((s.setReg x (wrappedSum t)).setCarry t).regs := by
  have hwrap : BitVec.ofNat 8 (t % 256) = wrappedSum t := BitVec.eq_of_toNat_eq (by simp [wrappedSum])
  rw [hwrap, setIfInBounds_regs]
  exact setIfInBounds_regs (s.setReg x (wrappedSum t)) carryReg (carryOf t)

theorem callTarget_fieldsOf_addr (w : Word) :
    callTarget (fieldsOf w).addr = BitVec.ofNat 16 (w.toNat % 4096) := by
  rw [callTarget, ← BitVec.ofNat_toNat, fieldsOf_addr_toNat]

/-- Settles O15: the decoder's arm fixes the listing's case, and in each case both write the same state. -/
theorem stepIsTheListing : Obligations.StepIsTheListing := by
  intro s hr
  cases hf : fetch s with
  | none => rw [step_of_fetch_none hr hf, listing_of_fetch_none hf]
  | some w =>
    obtain ⟨hin, hw⟩ := fetch_eq_some_iff.mp hf
    have hinstr : 256 * (s.mem.read s.pc.toNat).toNat + (s.mem.read (s.pc.toNat + 1)).toNat = w.toNat := by
      rw [hw, Memory.word, wordOfBytes_toNat]
    have hpc : BitVec.ofNat 16 (s.pc.toNat + 2) = s.pc + 2#16 := by
      rw [BitVec.ofNat_add, BitVec.ofNat_toNat, BitVec.setWidth_eq]
    simp only [listing, if_neg (Nat.not_le.mpr hin), hinstr, hpc, listingRaise_eq]
    obtain ⟨hn, hd⟩ | ⟨hn, hd⟩ | ⟨hg, hd⟩ | ⟨hg, hs, hd⟩ | ⟨hhalt, hret, hcall, hadd, hd⟩ := decode_cases w
    · rw [if_pos (by omega), step_of_decode_ok hr hf hd]
      rfl
    · rw [if_neg (by omega), if_pos (by omega), step_of_decode_ok hr hf hd]
      split
      · next hempty =>
        rw [execRet_of_stackEmpty (s := advance s) hempty, encode_of_decode hd]
      · next hused => exact execRet_of_entry (s := advance s) (Nat.pos_of_ne_zero hused)
    · rw [if_neg (by omega), if_neg (by omega), if_pos hg, step_of_decode_ok hr hf hd]
      split
      · next hfull =>
        rw [execCall_of_stackFull _ (s := advance s) hfull, encode_of_decode hd]
      · next hroom =>
        rw [execCall_of_room _ (s := advance s) (Nat.lt_of_not_le hroom), callTarget_fieldsOf_addr]
        rfl
    · have hx : w.toNat / 256 % 16 = (regOfField (fieldsOf w).x).val := (fieldsOf_x_toNat w).symm
      have hy : w.toNat / 16 % 16 = (regOfField (fieldsOf w).y).val := (fieldsOf_y_toNat w).symm
      rw [if_neg (by omega), if_neg (by omega), if_neg (by omega), if_pos ⟨hg, hs⟩, step_of_decode_ok hr hf hd,
        hx, hy, getD_regs_toList, getD_regs_toList, setIfInBounds_regs_add]
      rfl
    · rw [if_neg (by omega), if_neg (by omega), if_neg hcall, if_neg hadd, step_of_decode_error hr hf hd]

end Sys2Proof.Machine
end

section
/-! PROOF. Launch and observation (10_state.md section 9, 70_reset_and_hazards.md R118, R120): what a launch refuses,
the state it leaves, the invariant there, and what the host reads. -/

namespace Sys2Proof.Machine

/-! ### What a launch refuses -/

theorem imageInRange_iff {c : Config} {image : List (Nat × List Byte)} :
    imageInRange c image = true ↔ ∀ chunk ∈ image, chunk.1 + chunk.2.length ≤ c.memSize := by
  simp [imageInRange]

/-- The three answers of a launch, by its two checks. -/
theorem launch_cases (c : Config) (l : Launch) :
    (¬ c.Ok ∧ launch c l = .error .configurationNotAdmitted) ∨
    (c.Ok ∧ imageInRange c l.image = false ∧ launch c l = .error .imageOutOfRange) ∨
    (c.Ok ∧ imageInRange c l.image = true ∧ ∃ s, launch c l = .ok s) := by
  unfold launch
  split
  · exact .inl ⟨‹_›, rfl⟩
  · next hc =>
    have hok : c.Ok := not_not.mp hc
    split
    · exact .inr (.inl ⟨hok, ‹_›, rfl⟩)
    · next hi => exact .inr (.inr ⟨hok, by simpa using hi, _, rfl⟩)

theorem not_config_ok_iff {c : Config} : ¬ c.Ok ↔ c.memSize < 2 ∨ 4096 < c.memSize ∨ c.stackDepth = 0 := by
  unfold Config.Ok
  omega

/-- Settles O45: the two checks exclude each other's answers. -/
theorem launchRefusesBadConfigurationsAndImages : Obligations.LaunchRefusesBadConfigurationsAndImages := by
  intro c l
  have himage : (∃ chunk ∈ l.image, c.memSize < chunk.1 + chunk.2.length) ↔ imageInRange c l.image = false := by
    rw [← Bool.not_eq_true, imageInRange_iff]
    simp
  rw [← not_config_ok_iff, himage, ← imageInRange_iff]
  change _ ∧ (_ ↔ c.Ok ∧ _) ∧ (_ ↔ c.Ok ∧ _)
  obtain ⟨hc, h⟩ | ⟨hc, hi, h⟩ | ⟨hc, hi, s, h⟩ := launch_cases c l
  · simp [h, eq_false hc]
  · simp [h, eq_true hc, hi]
  · simp [h, eq_true hc, hi]

/-! ### The launch state -/

/-- The loader leaves a byte that none of its writes covers. -/
theorem read_foldl_writeBytes_of_uncovered (image : List (Nat × List Byte)) {m : Memory} {a : Nat}
    (hm : Memory.wf m = true)
    (h : ∀ chunk ∈ image, ¬ (chunk.1 ≤ a ∧ a < chunk.1 + chunk.2.length)) :
    (image.foldl (fun m chunk => m.writeBytes chunk.1 chunk.2) m).read a = m.read a := by
  induction image generalizing m with
  | nil => rfl
  | cons chunk rest ih =>
    rw [List.foldl_cons, ih (Memory.wf_writeBytes _ _ hm) fun c hc => h c (by simp [hc]),
      Memory.read_writeBytes _ _ _ hm, if_neg (h chunk (by simp))]

theorem read_loadImage_of_uncovered {image : List (Nat × List Byte)} {a : Nat}
    (h : ∀ chunk ∈ image, ¬ (chunk.1 ≤ a ∧ a < chunk.1 + chunk.2.length)) : (loadImage image).read a = 0x00#8 :=
  read_foldl_writeBytes_of_uncovered image rfl h

/-- A byte has the value of the last write that covers it (notes/assumptions/3.md). -/
theorem read_loadImage_of_last {before after : List (Nat × List Byte)} {a k : Nat} {bs : List Byte} {b : Byte}
    (hb : bs[k]? = some b)
    (h : ∀ chunk ∈ after, ¬ (chunk.1 ≤ a + k ∧ a + k < chunk.1 + chunk.2.length)) :
    (loadImage (before ++ (a, bs) :: after)).read (a + k) = b := by
  obtain ⟨hk, -⟩ := List.getElem?_eq_some_iff.mp hb
  have hbefore := loadImage_wf before
  rw [loadImage, List.foldl_append, List.foldl_cons, ← loadImage,
    read_foldl_writeBytes_of_uncovered after (Memory.wf_writeBytes a bs hbefore) h,
    Memory.read_writeBytes a bs _ hbefore, if_pos (by omega), Nat.add_sub_cancel_left,
    List.getD_eq_getElem?_getD, hb, Option.getD_some]

/-- Settles O44: construction's fields, the launch's own, and the two laws of the loaded image. -/
theorem launchStateIsTheLoadersImage : Obligations.LaunchStateIsTheLoadersImage := by
  intro c l s h
  obtain ⟨-, -, rfl⟩ := launch_ok h
  refine ⟨rfl, rfl, rfl, ?length, fun k hk => ?entry, rfl, rfl, rfl, fun a => read_loadImage_of_uncovered,
    fun before a bs after k b himage hb hafter => ?last⟩
  case length => exact List.length_replicate
  case entry => exact List.getElem?_replicate_of_lt hk
  case last =>
    show (loadImage l.image).read (a + k) = b
    rw [himage]
    exact read_loadImage_of_last hb hafter

/-! ### The invariant -/

/-- Construction meets the invariant, whatever registers, pc and canonical image are loaded over it. -/
theorem construct_loaded_inv {c : Config} (hc : c.Ok) {m : Memory} (hwf : Memory.wf m = true)
    (hin : Memory.within c.memSize m = true) (regs : Vector Byte 16) (pc : Word) :
    ({ State.construct c with mem := m, regs := regs, pc := pc } : State).Inv where
  wf := {
    cfg_ok := hc
    sp_le := Nat.zero_le _
    stack_len := List.length_replicate
    stack_le := fun v hv => by rw [List.eq_of_mem_replicate hv]; exact Nat.zero_le _
    mem_wf := hwf
    mem_within := hin }
  fault_wf := trivial

/-- Settles O39: construction over nothing, in the reference configuration. -/
theorem invariantHoldsAtReset : Obligations.InvariantHoldsAtReset :=
  construct_loaded_inv (c := Config.reference) (by decide) rfl rfl _ _

/-- Settles O40: a launch that is not refused loads an image inside `mem`. -/
theorem invariantHoldsAtLaunch : Obligations.InvariantHoldsAtLaunch := by
  intro c l s h
  obtain ⟨hc, hi, rfl⟩ := launch_ok h
  exact construct_loaded_inv hc (loadImage_wf l.image) (loadImage_within hi) l.regs l.pc0

/-- Settles O43: construction sets each of these, and the reset state is construction. -/
theorem constructionControlState : Obligations.ConstructionControlState :=
  ⟨fun _ => ⟨rfl, rfl, rfl⟩, rfl⟩

/-! ### A placed word -/

/-- A word's two bytes, stored at an address, read back as the word (R48). -/
theorem word_writeBytes_bytesOfWord {m : Memory} (a : Nat) (w : Word) (hm : Memory.wf m = true) :
    (m.writeBytes a (bytesOfWord w)).word a = w := by
  simp [Memory.word, Memory.read_writeBytes, hm, bytesOfWord]

/-- Settles O46: the bytes written are the word's, and a write covers its own addresses only. -/
theorem placedWordIsFetched : Obligations.PlacedWordIsFetched := by
  intro s w hm hin
  refine ⟨?fetch, fun a ha ha' => ?other⟩
  case fetch => exact fetch_eq_some_iff.mpr ⟨hin, (word_writeBytes_bytesOfWord s.pc.toNat w hm).symm⟩
  case other =>
    rw [Memory.read_writeBytes _ _ _ hm, if_neg]
    simp only [List.length_cons, List.length_nil]
    omega

/-! ### Observation and numbers -/

/-- Settles O47: an observation is a copy of the fields of a stopped machine. -/
theorem hostReadsOnlyAStoppedMachine : Obligations.HostReadsOnlyAStoppedMachine := by
  intro s
  unfold observe
  refine ⟨?none, fun o ho => ?some⟩
  case none => cases s.status <;> simp
  case some =>
    split at ho
    · cases ho
    all_goals
      cases ho
      exact ⟨rfl, rfl, rfl, rfl, rfl, rfl, rfl, rfl⟩

/-- Settles O48: each run state by its own number, none of them 3. -/
theorem runStateAndFaultNumbers : Obligations.RunStateAndFaultNumbers := by
  refine ⟨rfl, rfl, rfl, fun st => ?_, rfl, rfl, rfl, rfl⟩
  cases st <;> decide

end Sys2Proof.Machine
end

section
/-! PROOF. The executor (70_reset_and_hazards.md R85, R128): it reports the end of the machine's own steps. -/

namespace Sys2Proof.Machine

/-- What the executor reports is a state that the machine reaches, under the name of that state's own run state. -/
theorem runFor_cases (n : Nat) (s : State) :
    ∃ k t, k ≤ n ∧ StepsTo k s t ∧
      ((t.status = .halted ∧ runFor n s = .halted t) ∨
       (t.status = .faulted ∧ runFor n s = .faulted t) ∨
       (k = n ∧ t.status = .running ∧ runFor n s = .outOfFuel t)) := by
  induction n generalizing s with
  | zero =>
    refine ⟨0, s, Nat.le_refl 0, rfl, ?_⟩
    cases hst : s.status with
    | halted => exact .inl ⟨rfl, runFor_of_halted hst 0⟩
    | faulted => exact .inr (.inl ⟨rfl, runFor_of_faulted hst 0⟩)
    | running => exact .inr (.inr ⟨rfl, rfl, by rw [runFor, hst]⟩)
  | succ n ih =>
    cases hst : s.status with
    | halted => exact ⟨0, s, Nat.zero_le _, rfl, .inl ⟨hst, runFor_of_halted hst _⟩⟩
    | faulted => exact ⟨0, s, Nat.zero_le _, rfl, .inr (.inl ⟨hst, runFor_of_faulted hst _⟩)⟩
    | running =>
      obtain ⟨u, hu⟩ := step_total hst
      obtain ⟨k, t, hk, hsteps, hend⟩ := ih u
      rw [← runFor_step hu] at hend
      exact ⟨k + 1, t, Nat.succ_le_succ hk, ⟨u, hu, hsteps⟩, by simpa using hend⟩

/-- The executor spends one unit of fuel on each step. -/
theorem runFor_of_stepsTo {k : Nat} {s t : State} (h : StepsTo k s t) (n : Nat) :
    runFor (n + k) s = runFor n t := by
  induction k generalizing s with
  | zero => rw [h, Nat.add_zero]
  | succ k ih =>
    obtain ⟨u, hu, ht⟩ := h
    rw [← Nat.add_assoc, runFor_step hu, ih ht]

theorem runFor_of_stepsTo_halted {k n : Nat} {s t : State} (hk : k ≤ n) (h : StepsTo k s t)
    (ht : t.status = .halted) : runFor n s = .halted t := by
  rw [← Nat.sub_add_cancel hk, runFor_of_stepsTo h, runFor_of_halted ht]

theorem runFor_of_stepsTo_faulted {k n : Nat} {s t : State} (hk : k ≤ n) (h : StepsTo k s t)
    (ht : t.status = .faulted) : runFor n s = .faulted t := by
  rw [← Nat.sub_add_cancel hk, runFor_of_stepsTo h, runFor_of_faulted ht]

theorem runFor_of_stepsTo_running {n : Nat} {s t : State} (h : StepsTo n s t) (ht : t.status = .running) :
    runFor n s = .outOfFuel t := by
  rw [← Nat.zero_add n, runFor_of_stepsTo h, runFor, ht]

/-- Settles O49: a report is of a state reached, and the executor follows any steps that its fuel covers. -/
theorem executorReportsTheRunsOwnEnd : Obligations.ExecutorReportsTheRunsOwnEnd := by
  intro n s t
  obtain ⟨k, u, hk, hsteps, hend⟩ := runFor_cases n s
  refine ⟨⟨fun h => ?halted, fun ⟨ht, j, hj, hjsteps⟩ => runFor_of_stepsTo_halted hj hjsteps ht⟩,
    ⟨fun h => ?faulted, fun ⟨ht, j, hj, hjsteps⟩ => runFor_of_stepsTo_faulted hj hjsteps ht⟩,
    ⟨fun h => ?outOfFuel, fun ⟨ht, hnsteps⟩ => runFor_of_stepsTo_running hnsteps ht⟩⟩ <;>
    rw [h] at hend
  case halted =>
    obtain ⟨ht, rfl⟩ : u.status = .halted ∧ t = u := by simpa using hend
    exact ⟨ht, k, hk, hsteps⟩
  case faulted =>
    obtain ⟨ht, rfl⟩ : u.status = .faulted ∧ t = u := by simpa using hend
    exact ⟨ht, k, hk, hsteps⟩
  case outOfFuel =>
    obtain ⟨rfl, ht, rfl⟩ : k = n ∧ u.status = .running ∧ t = u := by simpa using hend
    exact ⟨ht, hsteps⟩

end Sys2Proof.Machine
end

section
/-! PROOF. Frames (42_subroutine.md R94): code inside a frame keeps the return address below it, so that the RET that
ends the frame goes back to the address after its CALL. -/

namespace Sys2Proof.Machine

/-- A step writes no entry below `sp`: CALL writes `stack[sp]` alone (R90). -/
theorem step_stackAt_of_lt {s t : State} (h : step s = .next t) {j : Nat} (hj : j < s.sp) :
    t.stackAt j = s.stackAt j := by
  obtain ⟨w, addr, -, -, -, -, hstack⟩ | ⟨w, -, -, -, hstack⟩ | ⟨-, hstack⟩ := step_callStack h
  · simpa only [State.stackAt, hstack] using stackAt_set_of_ne (s := s) (s.pc + 2#16) (Nat.ne_of_lt hj)
  · simp only [State.stackAt, hstack]
  · simp only [State.stackAt, hstack]

theorem stepsInFrame_stackAt {k n : Nat} {s t : State} (h : StepsInFrame k n s t) {j : Nat} (hj : j < k) :
    t.stackAt j = s.stackAt j := by
  induction n generalizing s with
  | zero =>
    obtain ⟨-, rfl⟩ := h
    rfl
  | succ n ih =>
    obtain ⟨hk, u, hu, ht⟩ := h
    exact (ih ht).trans (step_stackAt_of_lt hu (Nat.lt_of_lt_of_le hj hk))

/-- A CALL with room opens a frame: one entry more, the return address, and no other change but the pc (R90). -/
theorem step_call_opens_frame {s t : State} {w : Word} {addr : BitVec 12} (hwf : s.Wf) (hs : s.fetches w)
    (hd : decode w = .ok (.call addr)) (hroom : s.sp < s.cfg.stackDepth) (h : step s = .next t) :
    t.sp = s.sp + 1 ∧ t.stackAt s.sp = s.pc + 2#16 ∧ t.status = .running ∧ t.regs = s.regs ∧ t.mem = s.mem := by
  cases (step_of_call_room hs hd hroom).symm.trans h
  exact ⟨rfl, stackAt_of_set hwf hroom rfl, hs.1, rfl, rfl⟩

/-- Settles O50: RET reads the entry that CALL wrote. -/
theorem callThenRetBalances : Obligations.CallThenRetBalances := by
  intro s t w addr hwf hs hd hroom hstep hret
  obtain ⟨hsp, hentry, hr, hregs, hmem⟩ := step_call_opens_frame hwf hs hd hroom hstep
  exact ⟨_, (retWordSteps t ⟨hr, hret⟩).2 s.sp hsp, hentry, rfl, hregs, hmem, hr⟩

/-- Settles O51: the code inside the frame keeps the entry that CALL wrote, and RET reads it. -/
theorem balancedCodeReturnsAfterTheCall : Obligations.BalancedCodeReturnsAfterTheCall := by
  intro s t u w addr n hwf hs hd hroom hstep hframe hsp hret
  obtain ⟨-, hentry, -⟩ := step_call_opens_frame hwf hs hd hroom hstep
  have hkept : u.stackAt s.sp = t.stackAt s.sp := stepsInFrame_stackAt hframe (Nat.lt_succ_self _)
  exact ⟨_, (retWordSteps u hret).2 s.sp hsp, hkept.trans hentry, rfl, hret.1⟩

end Sys2Proof.Machine
end

section
/-! PROOF. Every run ends (70_reset_and_hazards.md R127). A frame's own instructions stand at rising addresses, so a
frame takes at most K own steps; each of its CALLs spends a frame one level deeper, which returns to the address after
the CALL or ends the run; and no frame opens above STACK_DEPTH. -/

namespace Sys2Proof.Machine

/-! ### The end of a frame -/

/-- `t` is the state in which a RET leaves the frame of `s`: one entry fewer, at the address that entry holds, with the
entries below it as they were. -/
structure FrameReturn (s t : State) : Prop where
  running : t.status = .running
  sp_succ : t.sp + 1 = s.sp
  pc_eq : t.pc = s.stackAt t.sp
  kept : ∀ j, j < t.sp → t.stackAt j = s.stackAt j

/-- Within `bound` steps from `s` the run ends or the frame of `s` returns. -/
def FrameEndsWithin (bound : Nat) (s : State) : Prop :=
  ∃ n t, n ≤ bound ∧ StepsTo n s t ∧ (t.status ≠ .running ∨ FrameReturn s t)

/-- A frame that has gone on to `u` at its own depth ends when the frame of `u` does. -/
theorem FrameEndsWithin.of_stepsTo {n bound : Nat} {s u : State} (h : StepsTo n s u) (hsp : u.sp = s.sp)
    (hkept : ∀ j, j < s.sp → u.stackAt j = s.stackAt j) (hu : FrameEndsWithin bound u) :
    FrameEndsWithin (n + bound) s := by
  obtain ⟨m, t, hm, hsteps, hend⟩ := hu
  refine ⟨n + m, t, Nat.add_le_add_left hm n, stepsTo_trans h hsteps, hend.imp id fun hret => ?_⟩
  have hlt : t.sp < s.sp := by have := hret.sp_succ; omega
  exact
    { running := hret.running
      sp_succ := hret.sp_succ.trans hsp
      pc_eq := hret.pc_eq.trans (hkept _ hlt)
      kept := fun j hj => (hret.kept j hj).trans (hkept j (hj.trans hlt)) }

theorem FrameEndsWithin.mono {m n : Nat} {s : State} (h : FrameEndsWithin m s) (hmn : m ≤ n) :
    FrameEndsWithin n s := by
  obtain ⟨k, t, hk, hend⟩ := h
  exact ⟨k, t, hk.trans hmn, hend⟩

theorem FrameEndsWithin.of_step {bound : Nat} {s t : State} (hstep : step s = .next t) (hbound : 1 ≤ bound)
    (hend : t.status ≠ .running ∨ FrameReturn s t) : FrameEndsWithin bound s :=
  ⟨1, t, hbound, ⟨t, hstep, rfl⟩, hend⟩

/-! ### A frame's own steps -/

/-- How many own steps a frame that has come to the pc of `s` can still take: one for every two bytes from the pc on,
and the fetch that faults. -/
def ownSteps (s : State) : Nat := (s.cfg.memSize - s.pc.toNat) / 2 + 1

theorem ownSteps_le_frameSteps (s : State) : ownSteps s ≤ frameSteps s.cfg.memSize := by
  unfold ownSteps frameSteps
  omega

/-- Going on at the next instruction uses up one of them. -/
theorem ownSteps_advance {s t : State} {w : Word} (hcfg : s.cfg.Ok) (hf : fetch s = some w) (htcfg : t.cfg = s.cfg)
    (htpc : t.pc = s.pc + 2#16) : ownSteps t + 1 = ownSteps s := by
  obtain ⟨hexact, hle⟩ := advance_pc_toNat hcfg hf
  rw [ownSteps, ownSteps, htcfg, htpc, hexact]
  omega

/-- What a step can do to the frame it is in: end the run, leave the frame, go on at the next instruction, or open a
frame one level deeper with the next instruction's address as its return address. -/
theorem step_frame_cases {s t : State} (hwf : s.Wf) (h : step s = .next t) :
    t.status ≠ .running ∨ FrameReturn s t ∨
    (t.status = .running ∧ ownSteps t + 1 = ownSteps s ∧ t.sp = s.sp) ∨
    (t.status = .running ∧ t.sp = s.sp + 1 ∧ t.stackAt s.sp = s.pc + 2#16 ∧ ∃ w, fetch s = some w) := by
  have hcfg := step_cfg h
  obtain ⟨hr, hfetch | hunimpl | hhalt | hret | hcall | hadd⟩ := step_next_cases h
  · obtain ⟨-, rfl⟩ := hfetch
    exact .inl (by simp)
  · obtain ⟨w, -, -, rfl⟩ := hunimpl
    exact .inl (by simp)
  · obtain ⟨w, -, -, rfl⟩ := hhalt
    exact .inl (by simp)
  · obtain ⟨w, -, -, ⟨-, rfl⟩ | ⟨hused, rfl⟩⟩ := hret
    · exact .inl (by simp)
    · exact .inr (.inl ⟨hr, Nat.sub_add_cancel hused, rfl, fun _ _ => rfl⟩)
  · obtain ⟨w, addr, hf, hd, ⟨-, rfl⟩ | ⟨hroom, rfl⟩⟩ := hcall
    · exact .inl (by simp)
    · obtain ⟨hsp, hentry, htr, -, -⟩ := step_call_opens_frame hwf ⟨hr, hf⟩ hd hroom h
      exact .inr (.inr (.inr ⟨htr, hsp, hentry, w, hf⟩))
  · obtain ⟨w, x, y, hf, -, rfl⟩ := hadd
    exact .inr (.inr (.inl ⟨hr, ownSteps_advance hwf.cfg_ok hf hcfg rfl, rfl⟩))

/-- A frame with `m` own steps left ends within `m` steps and as many deeper frames, where every frame one level deeper
ends within `inner` steps. -/
theorem frameEndsWithin_of_inner {c : Config} {depth inner : Nat}
    (hinner : ∀ u : State, u.Wf → u.status = .running → u.cfg = c → u.sp = depth + 1 → FrameEndsWithin inner u)
    {m : Nat} {s : State} (hwf : s.Wf) (hr : s.status = .running) (hc : s.cfg = c) (hsp : s.sp = depth)
    (hm : ownSteps s ≤ m) : FrameEndsWithin (m * (1 + inner)) s := by
  induction m generalizing s with
  | zero => exact absurd hm (Nat.not_succ_le_zero _)
  | succ m ih =>
    obtain ⟨t, hstep⟩ := step_total hr
    have hwft := step_wf hwf hstep
    have hct : t.cfg = c := (step_cfg hstep).trans hc
    have hkept : ∀ j, j < s.sp → t.stackAt j = s.stackAt j := fun _ => step_stackAt_of_lt hstep
    have hbound : 1 + inner + m * (1 + inner) = (m + 1) * (1 + inner) := by rw [Nat.succ_mul, Nat.add_comm]
    rw [← hbound]
    obtain hend | hret | ⟨htr, hown, htsp⟩ | ⟨htr, htsp, hentry, w, hf⟩ := step_frame_cases hwf hstep
    · exact .of_step hstep (by omega) (.inl hend)
    · exact .of_step hstep (by omega) (.inr hret)
    · have hrest := ih hwft htr hct (htsp.trans hsp) (by omega)
      exact (hrest.of_stepsTo (n := 1) ⟨t, hstep, rfl⟩ htsp hkept).mono (by omega)
    · obtain ⟨n, u, hn, hsteps, hend | hret⟩ := hinner t hwft htr hct (by omega)
      · exact ⟨n + 1, u, by omega, ⟨t, hstep, hsteps⟩, .inl hend⟩
      · have husp : u.sp = s.sp := by have := hret.sp_succ; omega
        have hupc : u.pc = s.pc + 2#16 := by rw [hret.pc_eq, husp, hentry]
        have hcu : u.cfg = s.cfg := (stepsTo_cfg hsteps).trans (step_cfg hstep)
        have hwfu : u.Wf := stepsTo_preserves (fun _ _ => step_wf) hwft hsteps
        have hown := ownSteps_advance hwf.cfg_ok hf hcu hupc
        have hrest := ih hwfu hret.running (hcu.trans hc) (husp.trans hsp) (by omega)
        refine (hrest.of_stepsTo (n := n + 1) ⟨t, hstep, hsteps⟩ husp fun j hj => ?_).mono (by omega)
        exact (hret.kept j (husp ▸ hj)).trans (hkept j hj)

/-! ### The bound -/

/-- A frame with `levels` levels above it ends within T of its depth (R127). -/
theorem frameEndsWithin_runBoundAt {levels : Nat} {s : State} (hwf : s.Wf) (hr : s.status = .running)
    (hlevels : s.sp + levels = s.cfg.stackDepth) :
    FrameEndsWithin (runBoundAt (frameSteps s.cfg.memSize) levels) s := by
  induction levels generalizing s with
  | zero =>
    have hnone (u : State) (hu : u.Wf) (_ : u.status = .running) (hc : u.cfg = s.cfg) (hsp : u.sp = s.sp + 1) :
        FrameEndsWithin 0 u := by
      have hle := hu.sp_le
      rw [hc] at hle
      omega
    simpa [runBoundAt] using frameEndsWithin_of_inner hnone hwf hr rfl rfl (ownSteps_le_frameSteps s)
  | succ levels ih =>
    refine frameEndsWithin_of_inner (fun u hu hur hc hsp => ?_) hwf hr rfl rfl (ownSteps_le_frameSteps s)
    rw [← hc]
    exact ih hu hur (by rw [hc]; omega)

/-- A launched machine has no frame to return from, so its outermost frame ends by ending the run. -/
theorem launch_run_ends {c : Config} {l : Launch} {s : State} (h : launch c l = .ok s) :
    ∃ n t, n ≤ runBound c ∧ StepsTo n s t ∧ t.status ≠ .running := by
  have hwf := (invariantHoldsAtLaunch c l s h).wf
  obtain ⟨-, -, rfl⟩ := launch_ok h
  obtain ⟨n, t, hn, hsteps, hend | hret⟩ := frameEndsWithin_runBoundAt hwf rfl (Nat.zero_add _)
  · exact ⟨n, t, hn, hsteps, hend⟩
  · exact absurd hret.sp_succ (Nat.succ_ne_zero _)

/-- Settles O52: the outermost frame ends within T(0) steps, and the executor follows the run to that end. -/
theorem everyRunEnds : Obligations.EveryRunEnds := by
  intro c l s h
  obtain ⟨k, t, hk, hsteps, ht⟩ := launch_run_ends h
  refine ⟨⟨k, t, hk, hsteps, ht⟩, fun n hn => ⟨t, ?_⟩⟩
  have hkn := hk.trans hn
  cases hst : t.status with
  | running => exact absurd hst ht
  | halted => exact .inl (runFor_of_stepsTo_halted hkn hsteps hst)
  | faulted => exact .inr (runFor_of_stepsTo_faulted hkn hsteps hst)

end Sys2Proof.Machine
end
